-- ==== Sys2Proof/Word.lean ====
section
/-! DEFINITION. The widths of the datapath and of the bus: Word (R10, R140), Byte (R10) and the 12-bit byte
address (R80). All arithmetic on a Word is addition modulo 2^32 (R11, R141), which is `+` on `BitVec 32`;
`^`, `&`, `~` of R142 to R144 are `^^^`, `&&&`, `~~~`. -/

namespace Sys2Proof

/-- R140: "an unsigned 32-bit integer". -/
abbrev Word := BitVec 32

/-- R10: a value in 0 .. 255. -/
abbrev Byte := BitVec 8

/-- R80: a 12-bit byte address of the register space. -/
abbrev Addr := BitVec 12

end Sys2Proof
end

