-- ==== Sys2Proof/Config.lean ====
section
/-! DEFINITION. What an implementation fixes (R8, R9) and the free values the spec leaves open (R355).
Every constant here is opaque: no proof can see a value of it, so a claim holds for every value. -/

namespace Sys2Proof.Config

/-- R8, R275, D23: the OPEN Boolean parameter HEX_UPPER (false: lowercase hex digits, true: uppercase), fixed
for an engine instance. DESIGN CHOICE, log entry 5. -/
opaque hexUpper : Bool

/-- R8, R358, C7, D28: the OPEN parameter T_CMD(op, ARG), a finite number of clock cycles. No rule depends on it
and the transaction-level model does not read it (R9). DESIGN CHOICE, log entry 6. -/
opaque tCmd : Byte → Byte → Nat

/-- R355, I8: the free 4-bit draw that draw number n of a STATUS read with BUSY = 1 shows in STATUS[7:4].
DESIGN CHOICE, log entry 4. -/
opaque freeErr : Nat → BitVec 4

/-- R355, I8: the free 3-bit draw that draw number n of a STATUS read with BUSY = 1 shows in STATUS[2:0].
DESIGN CHOICE, log entry 4. -/
opaque freePhase : Nat → BitVec 3

end Sys2Proof.Config
end

