-- ==== Sys2Proof/Machine/Constants.lean ====
section
/-! DEFINITION. The two constant ROMs (R43, R174 to R176) and, beside them, the source's generation rule in exact
integer form (R170, R173), which the engine does not run (R174) and which says what the ROMs must hold. -/

namespace Sys2Proof.Machine

/-- R175: IV[0..7]. -/
def ivRom : Vector Word 8 :=
  #v[0x6a09e667#32, 0xbb67ae85#32, 0x3c6ef372#32, 0xa54ff53a#32,
     0x510e527f#32, 0x9b05688c#32, 0x1f83d9ab#32, 0x5be0cd19#32]

/-- R176, row 0: K[0..7]. -/
def kRow0 : List Word :=
  [0x428a2f98#32, 0x71374491#32, 0xb5c0fbcf#32, 0xe9b5dba5#32,
   0x3956c25b#32, 0x59f111f1#32, 0x923f82a4#32, 0xab1c5ed5#32]

/-- R176, row 1: K[8..15]. -/
def kRow1 : List Word :=
  [0xd807aa98#32, 0x12835b01#32, 0x243185be#32, 0x550c7dc3#32,
   0x72be5d74#32, 0x80deb1fe#32, 0x9bdc06a7#32, 0xc19bf174#32]

/-- R176, row 2: K[16..23]. -/
def kRow2 : List Word :=
  [0xe49b69c1#32, 0xefbe4786#32, 0x0fc19dc6#32, 0x240ca1cc#32,
   0x2de92c6f#32, 0x4a7484aa#32, 0x5cb0a9dc#32, 0x76f988da#32]

/-- R176, row 3: K[24..31]. -/
def kRow3 : List Word :=
  [0x983e5152#32, 0xa831c66d#32, 0xb00327c8#32, 0xbf597fc7#32,
   0xc6e00bf3#32, 0xd5a79147#32, 0x06ca6351#32, 0x14292967#32]

/-- R176, row 4: K[32..39]. -/
def kRow4 : List Word :=
  [0x27b70a85#32, 0x2e1b2138#32, 0x4d2c6dfc#32, 0x53380d13#32,
   0x650a7354#32, 0x766a0abb#32, 0x81c2c92e#32, 0x92722c85#32]

/-- R176, row 5: K[40..47]. -/
def kRow5 : List Word :=
  [0xa2bfe8a1#32, 0xa81a664b#32, 0xc24b8b70#32, 0xc76c51a3#32,
   0xd192e819#32, 0xd6990624#32, 0xf40e3585#32, 0x106aa070#32]

/-- R176, row 6: K[48..55]. -/
def kRow6 : List Word :=
  [0x19a4c116#32, 0x1e376c08#32, 0x2748774c#32, 0x34b0bcb5#32,
   0x391c0cb3#32, 0x4ed8aa4a#32, 0x5b9cca4f#32, 0x682e6ff3#32]

/-- R176, row 7: K[56..63]. -/
def kRow7 : List Word :=
  [0x748f82ee#32, 0x78a5636f#32, 0x84c87814#32, 0x8cc70208#32,
   0x90befffa#32, 0xa4506ceb#32, 0xbef9a3f7#32, 0xc67178f2#32]

/-- R176: K[0..63] in order. -/
def kList : List Word :=
  kRow0 ++ kRow1 ++ kRow2 ++ kRow3 ++ kRow4 ++ kRow5 ++ kRow6 ++ kRow7

/-- R176: K[i]. The engine and the bus read it at i < 64 only. -/
def kAt (i : Nat) : Word := kList.getD i 0#32

/-- R175: IV[i]. The engine and the bus read it at i < 8 only. -/
def ivAt (i : Nat) : Word := ivRom.getD i 0#32

/-- One bit at a time from the top: the largest r' >= r that agrees with r above the low `bits` bits and has
r' ^ e <= x. -/
def rootBits (e x : Nat) : Nat → Nat → Nat
  | 0, r => r
  | bits + 1, r => if (r + 2 ^ bits) ^ e ≤ x then rootBits e x bits (r + 2 ^ bits) else rootBits e x bits r

/-- R173: isqrt(x), "the largest integer r with r^2 <= x". -/
def isqrt (x : Nat) : Nat := rootBits 2 x (x.log2 + 1) 0

/-- R173: icbrt(x), "the largest integer r with r^3 <= x". -/
def icbrt (x : Nat) : Nat := rootBits 3 x (x.log2 + 1) 0

/-- R170: "no d in 2..floor(sqrt(n)) divides n". -/
def noDivisor (n : Nat) : Bool :=
  (List.range (isqrt n + 1)).all fun d => decide (d < 2) || decide (n % d ≠ 0)

/-- R170: the search from n, at most `fuel` candidates, until `amount` primes are found. -/
def primesFrom : Nat → Nat → Nat → List Nat
  | 0, _, _ => []
  | _ + 1, _, 0 => []
  | fuel + 1, n, amount + 1 =>
    if noDivisor n then n :: primesFrom fuel (n + 1) amount else primesFrom fuel (n + 1) (amount + 1)

/-- R170: `primes(amount)`, the first `amount` primes. The candidates 2 .. amount^2 + 2 hold that many. -/
def primes (amount : Nat) : List Nat := primesFrom (amount * amount + 1) 2 amount

/-- R173: `isqrt(p * 2^64) mod 2^32`. -/
def ivOfPrime (p : Nat) : Word := BitVec.ofNat 32 (isqrt (p * 2 ^ 64))

/-- R173: `icbrt(p * 2^96) mod 2^32`. -/
def kOfPrime (p : Nat) : Word := BitVec.ofNat 32 (icbrt (p * 2 ^ 96))

end Sys2Proof.Machine
end

