-- ==== Sys2Proof/Syntax.lean ====
section
/-! DEFINITION. The command terms of R117: one constructor per row of the opcode map R113 (spec/opcode_table.json).
ARG is an unsigned 8-bit operand (R112), so every value of it is a legal operand. -/

namespace Sys2Proof

inductive Instr where
  /-- R294, OP 0x00. -/
  | nop
  /-- R295, OP 0x01. -/
  | init
  /-- R191, OP 0x02: the message byte. -/
  | push (byte : Byte)
  /-- R196, OP 0x03. -/
  | pad
  /-- R221, OP 0x04: the count code. -/
  | expand (arg : Byte)
  /-- R243, OP 0x05: the count code. -/
  | round (arg : Byte)
  /-- R270, OP 0x06. -/
  | final
  /-- R296, OP 0x07. -/
  | hash
  deriving DecidableEq, Repr

end Sys2Proof
end

