-- ==== Sys2Proof/WellFormed.lean ====
section
/-! DEFINITION. Which command words are well-formed (R114): the three checks and their conjunction. Every term of
Instr is well-formed by its type (ARG is 8 bits and has no illegal value), so the check is one of words. -/

namespace Sys2Proof

/-- R114: `c[31:24] <= 0x07`. -/
def opcodeKnown (c : Word) : Bool :=
  decide ((c.extractLsb' 24 8).toNat ≤ 0x07)

/-- R114: `c[23:8] = 0`. -/
def reservedZero (c : Word) : Bool :=
  c.extractLsb' 8 16 == 0#16

/-- R114: `c[7:0] = 0 or c[31:24] in {0x02, 0x04, 0x05}`. -/
def argAllowed (c : Word) : Bool :=
  c.extractLsb' 0 8 == 0#8 ||
    [0x02#8, 0x04#8, 0x05#8].contains (c.extractLsb' 24 8)

/-- R114: a command word is well-formed when all three checks pass. -/
def wellFormed (c : Word) : Bool :=
  opcodeKnown c && reservedZero c && argAllowed c

end Sys2Proof
end

