-- ==== Sys2Proof/Decode.lean ====
section
/-! DEFINITION. The decoder R117, total on 32-bit words, rejecting by name; after it the encoder, written from the
fields of R111 and the opcode map R113; and the rows of that map. -/

namespace Sys2Proof

/-- Why a word is illegal (R115). All three raise ILLEGAL_CMD (R297). -/
inductive Illegal where
  /-- Opcodes 0x08..0xFF. -/
  | unknownOpcode
  /-- Any opcode with RSV != 0. -/
  | reservedNotZero
  /-- NOP, INIT, PAD, FINAL or HASH with ARG != 0. -/
  | argNotZero
  deriving DecidableEq, Repr

/-- R111: OP, bits [31:24]. -/
def opOf (c : Word) : Byte := c.extractLsb' 24 8

/-- R111: RSV, bits [23:8]. -/
def rsvOf (c : Word) : BitVec 16 := c.extractLsb' 8 16

/-- R111: ARG, bits [7:0]. -/
def argOf (c : Word) : Byte := c.extractLsb' 0 8

/-- A command whose ARG must be 0 (R111). -/
def withoutArg (arg : Byte) (i : Instr) : Except Illegal Instr :=
  if arg = 0#8 then .ok i else .error .argNotZero

/-- R113: the command an opcode and an operand select when RSV is 0. -/
def decodeOp (op arg : Byte) : Except Illegal Instr :=
  if op = 0x00#8 then withoutArg arg .nop
  else if op = 0x01#8 then withoutArg arg .init
  else if op = 0x02#8 then .ok (.push arg)
  else if op = 0x03#8 then withoutArg arg .pad
  else if op = 0x04#8 then .ok (.expand arg)
  else if op = 0x05#8 then .ok (.round arg)
  else if op = 0x06#8 then withoutArg arg .final
  else if op = 0x07#8 then withoutArg arg .hash
  else .error .unknownOpcode

/-- R117: the decoder. -/
def decode (c : Word) : Except Illegal Instr :=
  if rsvOf c = 0#16 then decodeOp (opOf c) (argOf c) else .error .reservedNotZero

/-- R110, R116, for a row of the opcode table: every command is one 32-bit word, so a row of more than 32 bits is
none of this engine's, and the bits a shorter row does not give are 0. -/
def decodeTableWord (nbits w : Nat) : Option Instr :=
  if nbits ≤ 32 then
    match decode (BitVec.ofNat 32 (w % 2 ^ nbits)) with
    | .ok i => some i
    | .error _ => none
  else none

/-- R111: the command word with fields OP, RSV = 0 and ARG. -/
def commandWord (op arg : Byte) : Word := op ++ 0#16 ++ arg

/-- R113: the word of each command. -/
def encode : Instr → Word
  | .nop => commandWord 0x00#8 0#8
  | .init => commandWord 0x01#8 0#8
  | .push byte => commandWord 0x02#8 byte
  | .pad => commandWord 0x03#8 0#8
  | .expand arg => commandWord 0x04#8 arg
  | .round arg => commandWord 0x05#8 arg
  | .final => commandWord 0x06#8 0#8
  | .hash => commandWord 0x07#8 0#8

/-- R113: the rows of the opcode map as (match, mask). -/
def opcodeRows : List (Word × Word) :=
  [(0x00000000#32, 0xFFFFFFFF#32),
   (0x01000000#32, 0xFFFFFFFF#32),
   (0x02000000#32, 0xFFFFFF00#32),
   (0x03000000#32, 0xFFFFFFFF#32),
   (0x04000000#32, 0xFFFFFF00#32),
   (0x05000000#32, 0xFFFFFF00#32),
   (0x06000000#32, 0xFFFFFFFF#32),
   (0x07000000#32, 0xFFFFFFFF#32)]

/-- R113: "A command word c selects a row when `(c & mask) = match`." -/
def selects (c : Word) (row : Word × Word) : Bool := c &&& row.2 == row.1

end Sys2Proof
end

