-- ==== Sys2Proof/Machine/State.lean ====
section
/-! DEFINITION. The state of the engine (R30: "exactly the elements in this table and nothing else"), the model's own
fields beside it (INVENTORY.md, '## State'), the reasons a step can stop, and the reset state (R49, R352). -/

namespace Sys2Proof.Machine

/-- R31: the eight values of PHASE. -/
inductive Phase where
  | idle
  | load
  | padded
  | expanded
  | compress
  | compressed
  | done
  | error
  deriving DecidableEq, Repr

/-- R311: the error codes. Codes 7..15 are never produced (I10), so ERR is one of these seven (DEDUCED, log entry 12). -/
inductive ErrCode where
  | none
  | illegalCmd
  | sequence
  | msgTooLong
  | paddingInvariant
  | badCount
  /-- Reserved and never raised (R174). -/
  | primeSearchExhausted
  deriving DecidableEq, Repr

/-- R40, R47: the Working State a..h. -/
structure WorkVars where
  a : Word
  b : Word
  c : Word
  d : Word
  e : Word
  f : Word
  g : Word
  h : Word
  deriving DecidableEq, Repr

/-- What happens next at the engine's edge, as the environment orders it (R291, R93, R350; DESIGN CHOICE, log entry 1). -/
inductive Move where
  /-- The host reads the register at this byte address (R83). -/
  | read (addr : Addr)
  /-- The host writes this value to the register at this byte address (R84). -/
  | write (addr : Addr) (value : Word)
  /-- The host does nothing and the engine has its turn (R291). -/
  | engine
  /-- The input rst_n takes this level (R350). -/
  | rstN (level : Bool)
  deriving DecidableEq, Repr

/-- What one host read returned (R83; DESIGN CHOICE, log entry 3). -/
structure Reply where
  addr : Addr
  data : Word
  deriving DecidableEq, Repr

structure State where
  /-- PHASE, R31. -/
  phase : Phase
  /-- ERR, R32. -/
  err : ErrCode
  /-- ERRCMD, R33. -/
  errcmd : Word
  /-- BUSY, R34. -/
  busy : Bool
  /-- PEND, R35, hidden. -/
  pend : Word
  /-- MSGLEN, R36. -/
  msglen : BitVec 6
  /-- BLK[0..63], R37. -/
  blk : Vector Byte 64
  /-- W[0..63], R38. -/
  w : Vector Word 64
  /-- SCNT, R39. -/
  scnt : BitVec 7
  /-- WV = (a..h), R40. -/
  wv : WorkVars
  /-- RCNT, R41. -/
  rcnt : BitVec 7
  /-- H[0..7], R42. -/
  h : Vector Word 8
  /-- The model's own: the level of the input rst_n (R350; DESIGN CHOICE, log entry 13). -/
  rstN : Bool
  /-- The model's own: what happens next, first move first (DESIGN CHOICE, log entry 1). -/
  moves : List Move
  /-- The model's own: what host reads have returned, oldest first (DESIGN CHOICE, log entry 3). -/
  replies : List Reply
  /-- The model's own: how many free draws have been taken (R355; DESIGN CHOICE, log entry 4). -/
  draws : Nat
  deriving DecidableEq, Repr

/-- The machine's own faults. The errors of R311 are NOT faults: an error is a next state (R312). -/
inductive Fault where
  /-- Raised by EXPAND in PHASE = PADDED with SCNT < 16. R220 excludes it ("requires i = SCNT, 16 <= i <= 63") and
  no reachable state has it (R48). Safe: the model stops where the spec gives no value. DESIGN CHOICE, log entry 7. -/
  | scheduleNotLoaded
  deriving DecidableEq, Repr

inductive Refusal where
  /-- Raised by `exec` for an instruction without a meaning: none is left. Safe. -/
  | notModelled (mnemonic : String)
  /-- Raised by a host access whose address has addr[1:0] != 0, which the bus cannot express (R81: "A model that
  receives any other address refuses the access by name"). Safe. DEDUCED, log entry 11. -/
  | misalignedAccess (addr : Addr)
  deriving DecidableEq, Repr

/-- Why a command does not complete with its own effect: an error of R311, or the machine's own fault. -/
inductive Abort where
  | error (code : ErrCode)
  | fault (reason : Fault)
  deriving DecidableEq, Repr

/-- R49: a..h after reset. -/
def WorkVars.zero : WorkVars := ⟨0#32, 0#32, 0#32, 0#32, 0#32, 0#32, 0#32, 0#32⟩

/-- R49, R352: the state right after reset, with rst_n released and nothing on the bus (DESIGN CHOICE, log entry 13). -/
def State.reset : State where
  phase := .idle
  err := .none
  errcmd := 0#32
  busy := false
  pend := 0#32
  msglen := 0#6
  blk := Vector.replicate 64 0#8
  w := Vector.replicate 64 0#32
  scnt := 0#7
  wv := WorkVars.zero
  rcnt := 0#7
  h := Vector.replicate 8 0#32
  rstN := true
  moves := []
  replies := []
  draws := 0

end Sys2Proof.Machine
end

