-- ==== Sys2Proof/Machine/Flags.lean ====
section
/-! DEFINITION. The engine's status flags: the fields of STATUS (R46, R82) and the numbers they show. There are no
arithmetic flags (R46). -/

namespace Sys2Proof.Machine

/-- R31: the 3-bit value of PHASE. -/
def Phase.code : Phase → BitVec 3
  | .idle => 0#3
  | .load => 1#3
  | .padded => 2#3
  | .expanded => 3#3
  | .compress => 4#3
  | .compressed => 5#3
  | .done => 6#3
  | .error => 7#3

/-- R311: the 4-bit value of ERR. -/
def ErrCode.code : ErrCode → BitVec 4
  | .none => 0#4
  | .illegalCmd => 1#4
  | .sequence => 2#4
  | .msgTooLong => 3#4
  | .paddingInvariant => 4#4
  | .badCount => 5#4
  | .primeSearchExhausted => 6#4

/-- R83: STATUS = zext_32({ERR, BUSY, PHASE}) from the three fields. -/
def statusWord (err : BitVec 4) (busy : Bool) (phase : BitVec 3) : Word :=
  (err ++ BitVec.ofBool busy ++ phase).setWidth 32

/-- R83: COUNT = zext_32({RCNT, 0b0, SCNT}). -/
def countWord (rcnt scnt : BitVec 7) : Word :=
  (rcnt ++ 0#1 ++ scnt).setWidth 32

/-- R82: MSGLEN[5:0], the other bits 0. -/
def msglenWord (msglen : BitVec 6) : Word := msglen.setWidth 32

end Sys2Proof.Machine
end

