-- ==== Sys2Proof/Machine/Operands.lean ====
section
/-! DEFINITION. The one operand form: ARG as a byte, and ARG as a count code (R112). The byte of PUSH is ARG itself. -/

namespace Sys2Proof.Machine

/-- R112: the steps still to do, `64 - done` (done = SCNT or RCNT). In states no run reaches done may exceed 64 and
nothing remains (DESIGN CHOICE, log entry 9). -/
def remaining (done : BitVec 7) : Nat := 64 - done.toNat

/-- R112: `count(ARG, done) = if ARG = 0 then 64 - done else ARG`. -/
def count (arg : Byte) (done : BitVec 7) : Nat :=
  if arg = 0#8 then remaining done else arg.toNat

end Sys2Proof.Machine
end

