-- ==== Sys2Proof/Machine/Ops.lean ====
section
/-! DEFINITION. The operations all commands share: reads of the arrays, the packing of four bytes (R87), the error
entry (R312) and the frame of `exec` around a command (R292), issue of a command word (R290), and the reset action
(R350). The return from an error is INIT (R316), in Control.lean. -/

namespace Sys2Proof.Machine

/-- What a command does to the state before `exec` commits it: the new state, or why there is none. -/
abbrev Body := State → Except Abort State

/-- R12: `W[i]`. The engine reads it at i < 64 only. -/
def State.wAt (s : State) (i : Nat) : Word := s.w.getD i 0#32

/-- R12: `BLK[j]`. The engine and the bus read it at j < 64 only. -/
def State.blkAt (s : State) (j : Nat) : Byte := s.blk.getD j 0#8

/-- R12: `H[i]`. The engine and the bus read it at i < 8 only. -/
def State.hAt (s : State) (i : Nat) : Word := s.h.getD i 0#32

/-- R47: WV by index, 0 is a and 7 is h. -/
def WorkVars.at (v : WorkVars) (i : Fin 8) : Word :=
  match i with
  | 0 => v.a
  | 1 => v.b
  | 2 => v.c
  | 3 => v.d
  | 4 => v.e
  | 5 => v.f
  | 6 => v.g
  | 7 => v.h

/-- R87, R89, R274: `{b0, b1, b2, b3}`, the first byte most significant. -/
def pack4 (b0 b1 b2 b3 : Byte) : Word := b0 ++ b1 ++ b2 ++ b3

/-- R87, R89: `{BLK[4j], BLK[4j+1], BLK[4j+2], BLK[4j+3]}`. -/
def blockWord (blk : Vector Byte 64) (j : Nat) : Word :=
  pack4 (blk.getD (4 * j) 0#8) (blk.getD (4 * j + 1) 0#8) (blk.getD (4 * j + 2) 0#8) (blk.getD (4 * j + 3) 0#8)

/-- R312: `raise Error(code)` while completing the word c, on the state from before c: PHASE, ERR and ERRCMD change
and nothing else does. -/
def raiseError (code : ErrCode) (c : Word) (s : State) : State :=
  { s with phase := .error, err := code, errcmd := c }

/-- R292, R315: `exec` around a command other than INIT. In ERROR the word is ignored; an error of the command undoes
every write it made and enters ERROR (R312). -/
def runCommand (c : Word) (body : Body) (s : State) : Host.Outcome State Fault Refusal :=
  if s.phase = .error then .next s
  else
    match body s with
    | .ok t => .next t
    | .error (.error code) => .next (raiseError code c s)
    | .error (.fault reason) => .fault reason

/-- R290: `IssueCommand(v)`. -/
def issueCommand (v : Word) (s : State) : State :=
  { s with pend := v, busy := true }

/-- R350, R49: every element of R30 takes its reset value. The model's own fields are kept. -/
def resetEngine (s : State) : State :=
  { State.reset with rstN := s.rstN, moves := s.moves, replies := s.replies, draws := s.draws }

end Sys2Proof.Machine
end

