-- ==== Sys2Proof/Machine/Finalizer.lean ====
section
/-! DEFINITION. The Finalizer: FINAL (R270) and the digest's text (R272 to R274). The letter case is an argument here;
the bus gives it Config.hexUpper (R275). -/

namespace Sys2Proof.Machine

/-- R270: `H[i] <- H[i] + WV[i]` for the eight pairs (h0,a), ..., (h7,h). -/
def foldWork (h : Vector Word 8) (v : WorkVars) : Vector Word 8 :=
  #v[h[0] + v.a, h[1] + v.b, h[2] + v.c, h[3] + v.d, h[4] + v.e, h[5] + v.f, h[6] + v.g, h[7] + v.h]

/-- R270: FINAL(). -/
def finalBody : Body := fun s =>
  if s.phase ≠ .compressed then .error (.error .sequence)
  else .ok { s with h := foldWork s.h s.wv, phase := .done }

/-- FINAL (R270) as `exec` runs it. -/
def execFinal (s : State) : Host.Outcome State Fault Refusal :=
  runCommand (encode .final) finalBody s

/-- R272: `hexdigit(v)`, one ASCII byte. -/
def hexDigit (upper : Bool) (v : BitVec 4) : Byte :=
  if v.toNat < 10 then 0x30#8 + v.setWidth 8
  else if upper then 0x41#8 + (v.setWidth 8 - 10#8)
  else 0x61#8 + (v.setWidth 8 - 10#8)

/-- R273: `hex8(x)`, most significant digit first. -/
def hex8 (upper : Bool) (x : Word) : List Byte :=
  [hexDigit upper (x.extractLsb' 28 4), hexDigit upper (x.extractLsb' 24 4),
   hexDigit upper (x.extractLsb' 20 4), hexDigit upper (x.extractLsb' 16 4),
   hexDigit upper (x.extractLsb' 12 4), hexDigit upper (x.extractLsb' 8 4),
   hexDigit upper (x.extractLsb' 4 4), hexDigit upper (x.extractLsb' 0 4)]

/-- R273: DIGEST, the 64 ASCII bytes D[0..63]. -/
def digestText (upper : Bool) (h : Vector Word 8) : List Byte :=
  hex8 upper h[0] ++ hex8 upper h[1] ++ hex8 upper h[2] ++ hex8 upper h[3] ++
  hex8 upper h[4] ++ hex8 upper h[5] ++ hex8 upper h[6] ++ hex8 upper h[7]

/-- R274: `HEXREG(n)`, gated to PHASE = DONE. -/
def hexReg (upper : Bool) (s : State) (n : Nat) : Word :=
  if s.phase = .done then
    pack4 ((digestText upper s.h).getD (4 * n) 0#8) ((digestText upper s.h).getD (4 * n + 1) 0#8)
      ((digestText upper s.h).getD (4 * n + 2) 0#8) ((digestText upper s.h).getD (4 * n + 3) 0#8)
  else 0x00000000#32

end Sys2Proof.Machine
end

