-- ==== Sys2Proof/Machine/Bus.lean ====
section
/-! DEFINITION. The register space (R80 to R91): the register map (R82), what a read returns (R83), what a write does
(R84), which accesses wait (R354) and what STATUS shows while the engine is busy (R355). -/

namespace Sys2Proof.Machine

/-- R82: the registers of the map, with the index within an array. -/
inductive Reg where
  | cmd
  | status
  | msglen
  | errcmd
  | count
  | h (i : Fin 8)
  | wv (i : Fin 8)
  | iv (i : Fin 8)
  | blk (n : Fin 16)
  | hex (n : Fin 16)
  | w (i : Fin 64)
  | k (i : Fin 64)
  | reserved
  deriving DecidableEq, Repr

/-- R81: addr[1:0] != 0, an access the bus cannot express. -/
def misaligned (addr : Addr) : Bool := addr.extractLsb' 0 2 != 0#2

/-- R82: the rows of the register map: base address, number of registers, and register i of the row. -/
def regMap : List (Nat × Nat × (Nat → Reg)) :=
  [(0x000, 1, fun _ => .cmd),
   (0x004, 1, fun _ => .status),
   (0x008, 1, fun _ => .msglen),
   (0x00C, 1, fun _ => .errcmd),
   (0x010, 1, fun _ => .count),
   (0x020, 8, fun i => .h (Fin.ofNat 8 i)),
   (0x040, 8, fun i => .wv (Fin.ofNat 8 i)),
   (0x060, 8, fun i => .iv (Fin.ofNat 8 i)),
   (0x080, 16, fun n => .blk (Fin.ofNat 16 n)),
   (0x0C0, 16, fun n => .hex (Fin.ofNat 16 n)),
   (0x100, 64, fun i => .w (Fin.ofNat 64 i)),
   (0x200, 64, fun i => .k (Fin.ofNat 64 i))]

/-- R82: "Register index n of an array is at base + 4n." -/
def rowHolds (a : Nat) (row : Nat × Nat × (Nat → Reg)) : Bool :=
  decide (row.1 ≤ a) && decide (a < row.1 + 4 * row.2.1)

/-- R82: the register of a byte address; "Every address not listed is reserved." -/
def regAt (a : Nat) : Reg :=
  match regMap.find? (rowHolds a) with
  | some row => row.2.2 ((a - row.1) / 4)
  | none => .reserved

/-- R82: the register at a bus address. -/
def regOf (addr : Addr) : Reg := regAt addr.toNat

/-- R83: the content of each register, computed from the state, with BUSY = 0. -/
def readReg (upper : Bool) (s : State) : Reg → Word
  | .cmd => 0x00000000#32
  | .status => statusWord s.err.code s.busy s.phase.code
  | .msglen => msglenWord s.msglen
  | .errcmd => s.errcmd
  | .count => countWord s.rcnt s.scnt
  | .h i => s.hAt i.val
  | .wv i => s.wv.at i
  | .iv i => ivAt i.val
  | .blk n => blockWord s.blk n.val
  | .hex n => hexReg upper s n.val
  | .w i => s.wAt i.val
  | .k i => kAt i.val
  | .reserved => 0x00000000#32

/-- R355, I8: STATUS read while BUSY = 1, free draw number n. BUSY reads 1 and bits [31:8] read 0. -/
def busyStatus (n : Nat) : Word := statusWord (Config.freeErr n) true (Config.freePhase n)

/-- R83: `MemRead(addr, 4)` once it no longer waits. With BUSY = 1 only STATUS is read. -/
def memRead (s : State) (addr : Addr) : Word :=
  if s.busy then busyStatus s.draws else readReg Config.hexUpper s (regOf addr)

/-- A host read takes the value and the host keeps it. A STATUS read while BUSY uses one free draw (R355). -/
def hostRead (addr : Addr) (s : State) : State :=
  { s with
    replies := s.replies ++ [⟨addr, memRead s addr⟩]
    draws := if s.busy then s.draws + 1 else s.draws }

/-- R84: `MemWrite(addr, 4, v)` once it no longer waits: a write to CMD issues the command word, a write to any other
address has no effect. -/
def hostWrite (addr : Addr) (v : Word) (s : State) : State :=
  if regOf addr = .cmd then issueCommand v s else s

/-- R354, R83: a read waits while BUSY = 1, unless it is a read of STATUS. -/
def readWaits (s : State) (addr : Addr) : Bool := s.busy && !decide (regOf addr = .status)

/-- R354, R84: a write waits while BUSY = 1. -/
def writeWaits (s : State) : Bool := s.busy

end Sys2Proof.Machine
end

