-- ==== Sys2Proof/Machine/Primitives.lean ====
section
/-! DEFINITION. The bit primitives shr and rotr and the composite functions (R145 to R152). The source's S0, S1
(compression) and s0, s1 (schedule) are `upperS0`, `upperS1`, `lowerS0`, `lowerS1`: the case matters (40_primitives.md
section 3). R141 to R144 are `+`, `^^^`, `&&&` and `~~~` of `BitVec 32`. -/

namespace Sys2Proof.Machine

/-- R145: logical right shift; zeros enter at bit 31. -/
def shr (a : Word) (n : Nat) : Word := a >>> n

/-- R146: rotate right; `rotr(a, 0) = a` (C5). -/
def rotr (a : Word) (n : Nat) : Word :=
  if n = 0 then a else (a >>> n) ||| (a <<< (32 - n))

/-- R147: S0, the compression function's mixing of a. -/
def upperS0 (a : Word) : Word := rotr a 2 ^^^ rotr a 13 ^^^ rotr a 22

/-- R148: S1, the compression function's mixing of e. -/
def upperS1 (e : Word) : Word := rotr e 6 ^^^ rotr e 11 ^^^ rotr e 25

/-- R149: s0, the schedule's first mixing function. -/
def lowerS0 (x : Word) : Word := rotr x 7 ^^^ rotr x 18 ^^^ shr x 3

/-- R150: s1, the schedule's second mixing function. -/
def lowerS1 (x : Word) : Word := rotr x 17 ^^^ rotr x 19 ^^^ shr x 10

/-- R151: choose. -/
def ch (e f g : Word) : Word := (e &&& f) ^^^ (~~~e &&& g)

/-- R152: majority. -/
def maj (a b c : Word) : Word := (a &&& b) ^^^ (a &&& c) ^^^ (b &&& c)

end Sys2Proof.Machine
end

