-- ==== Sys2Proof/Machine/Compressor.lean ====
section
/-! DEFINITION. The Compressor: one round (R240), loading the working state (R242) and ROUND (R243). -/

namespace Sys2Proof.Machine

/-- R240: T1. -/
def temp1 (v : WorkVars) (k w : Word) : Word := v.h + upperS1 v.e + ch v.e v.f v.g + k + w

/-- R240: T2. -/
def temp2 (v : WorkVars) : Word := upperS0 v.a + maj v.a v.b v.c

/-- R240: the working state after one round with round constant k and schedule word w, all eight assigned at once. -/
def nextWork (v : WorkVars) (k w : Word) : WorkVars where
  a := temp1 v k w + temp2 v
  b := v.a
  c := v.b
  d := v.c
  e := v.d + temp1 v k w
  f := v.e
  g := v.f
  h := v.g

/-- R242: the eight words of H as a..h. -/
def workOf (h : Vector Word 8) : WorkVars :=
  ⟨h[0], h[1], h[2], h[3], h[4], h[5], h[6], h[7]⟩

/-- R242: `loadWorking()`. -/
def loadWorking (s : State) : State :=
  { s with wv := workOf s.h, phase := .compress }

/-- R240: `roundStep(RCNT)`. -/
def roundStep (s : State) : State :=
  { s with wv := nextWork s.wv (kAt s.rcnt.toNat) (s.wAt s.rcnt.toNat), rcnt := s.rcnt + 1#7 }

/-- R243: "repeat n times: roundStep(RCNT)". -/
def roundSteps : Nat → State → State
  | 0, s => s
  | n + 1, s => roundSteps n (roundStep s)

/-- R243: "if PHASE = EXPANDED then loadWorking()". -/
def openWork (s : State) : State :=
  if s.phase = .expanded then loadWorking s else s

/-- R243: "if RCNT = 64 then PHASE <- COMPRESSED". -/
def closeRounds (s : State) : State :=
  if s.rcnt = 64#7 then { s with phase := .compressed } else s

/-- R243: ROUND(ARG). The count check comes before the load. -/
def roundBody (arg : Byte) : Body := fun s =>
  if s.phase ≠ .expanded ∧ s.phase ≠ .compress then .error (.error .sequence)
  else if remaining s.rcnt < count arg s.rcnt then .error (.error .badCount)
  else .ok (closeRounds (roundSteps (count arg s.rcnt) (openWork s)))

/-- ROUND (R243) as `exec` runs it. -/
def execRound (arg : Byte) (s : State) : Host.Outcome State Fault Refusal :=
  runCommand (encode (.round arg)) (roundBody arg) s

end Sys2Proof.Machine
end

