-- ==== Sys2Proof/Machine/Preprocessor.lean ====
section
/-! DEFINITION. The Message Preprocessor: PUSH (R191), PAD (R196), and the padding function of the source for a message
of any length (R192). -/

namespace Sys2Proof.Machine

/-- R192: `be64(L)`, the eight bytes of a 64-bit number, most significant first. -/
def be64 (l : BitVec 64) : List Byte :=
  [l.extractLsb' 56 8, l.extractLsb' 48 8, l.extractLsb' 40 8, l.extractLsb' 32 8,
   l.extractLsb' 24 8, l.extractLsb' 16 8, l.extractLsb' 8 8, l.extractLsb' 0 8]

/-- R192: the bit length L = 8 * n of n bytes, 64 bits. -/
def bitLength (n : Nat) : BitVec 64 := BitVec.ofNat 64 (8 * n)

/-- R192: `z = (55 - n) mod 64`, "least z >= 0 with (n + 1 + z) mod 64 = 56". -/
def zeroCount (n : Nat) : Nat := (55 + 63 * n) % 64

/-- R192: `pad(m) = m ++ [0x80] ++ [0x00] * z ++ be64(L)`. -/
def pad (m : List Byte) : List Byte :=
  m ++ [0x80#8] ++ List.replicate (zeroCount m.length) 0#8 ++ be64 (bitLength m.length)

/-- R191: PUSH(b). -/
def pushBody (b : Byte) : Body := fun s =>
  if s.phase ≠ .load then .error (.error .sequence)
  else if s.msglen = 55#6 then .error (.error .msgTooLong)
  else .ok { s with blk := s.blk.setIfInBounds s.msglen.toNat b, msglen := s.msglen + 1#6 }

/-- R194, R196: byte j of the block after padding a message of n bytes. -/
def padByte (blk : Vector Byte 64) (n j : Nat) : Byte :=
  if 56 ≤ j then (be64 (bitLength n)).getD (j - 56) 0#8
  else if n < j then 0x00#8
  else if j = n then 0x80#8
  else blk.getD j 0#8

/-- R194: the padded block of a message of n bytes that stands in BLK[0..n-1]. -/
def padBlock (blk : Vector Byte 64) (n : Nat) : Vector Byte 64 :=
  Vector.ofFn fun j : Fin 64 => padByte blk n j.val

/-- R196: the schedule after `W[j] <- {BLK[4j], ..., BLK[4j+3]}` for j in 0..15. -/
def loadSchedule (blk : Vector Byte 64) (w : Vector Word 64) : Vector Word 64 :=
  Vector.ofFn fun i : Fin 64 => if i.val < 16 then blockWord blk i.val else w[i]

/-- R193: the padding check. z counts zero bytes and is a natural number (DESIGN CHOICE, log entry 8). -/
def paddingHolds (n : Nat) : Bool := (n + 1 + (55 - n)) % 64 == 56

/-- R196: PAD(). -/
def padBody : Body := fun s =>
  if s.phase ≠ .load then .error (.error .sequence)
  else if paddingHolds s.msglen.toNat then
    .ok { s with
      blk := padBlock s.blk s.msglen.toNat
      w := loadSchedule (padBlock s.blk s.msglen.toNat) s.w
      scnt := 16#7
      phase := .padded }
  else .error (.error .paddingInvariant)

/-- PUSH (R191) as `exec` runs it. -/
def execPush (b : Byte) (s : State) : Host.Outcome State Fault Refusal :=
  runCommand (encode (.push b)) (pushBody b) s

/-- PAD (R196) as `exec` runs it. -/
def execPad (s : State) : Host.Outcome State Fault Refusal :=
  runCommand (encode .pad) padBody s

end Sys2Proof.Machine
end

