-- ==== Sys2Proof/Machine/Schedule.lean ====
section
/-! DEFINITION. The Schedule Expander: the expansion step (R220) and EXPAND (R221). -/

namespace Sys2Proof.Machine

/-- R220: the right-hand side of `W[i] <- W[i-16] + s0(W[i-15]) + W[i-7] + s1(W[i-2])`. -/
def scheduleWord (w16 w15 w7 w2 : Word) : Word := w16 + lowerS0 w15 + w7 + lowerS1 w2

/-- R220: `expandStep(SCNT)`. -/
def expandStep (s : State) : State :=
  { s with
    w := s.w.setIfInBounds s.scnt.toNat
      (scheduleWord (s.wAt (s.scnt.toNat - 16)) (s.wAt (s.scnt.toNat - 15)) (s.wAt (s.scnt.toNat - 7))
        (s.wAt (s.scnt.toNat - 2)))
    scnt := s.scnt + 1#7 }

/-- R221: "repeat n times: expandStep(SCNT)". -/
def expandSteps : Nat → State → State
  | 0, s => s
  | n + 1, s => expandSteps n (expandStep s)

/-- R221: "if SCNT = 64 then PHASE <- EXPANDED". -/
def closeSchedule (s : State) : State :=
  if s.scnt = 64#7 then { s with phase := .expanded } else s

/-- R221: EXPAND(ARG). The step of R220 "requires i = SCNT, 16 <= i <= 63"; with SCNT < 16 the command is a fault (DESIGN CHOICE, log
entry 7). -/
def expandBody (arg : Byte) : Body := fun s =>
  if s.phase ≠ .padded then .error (.error .sequence)
  else if remaining s.scnt < count arg s.scnt then .error (.error .badCount)
  else if s.scnt.toNat < 16 then .error (.fault .scheduleNotLoaded)
  else .ok (closeSchedule (expandSteps (count arg s.scnt) s))

/-- EXPAND (R221) as `exec` runs it. -/
def execExpand (arg : Byte) (s : State) : Host.Outcome State Fault Refusal :=
  runCommand (encode (.expand arg)) (expandBody arg) s

end Sys2Proof.Machine
end

