-- ==== Sys2Proof/Machine/Control.lean ====
section
/-! DEFINITION. The control commands NOP (R294), INIT (R295) and HASH (R296), and the words that are no command
(R297). -/

namespace Sys2Proof.Machine

/-- R294: NOP(), no state change. -/
def nopBody : Body := fun s => .ok s

/-- R295: INIT(). BUSY and PEND are R291's. It is also the way out of ERROR (R316). -/
def initState (s : State) : State :=
  { s with
    msglen := 0#6
    blk := Vector.replicate 64 0x00#8
    w := Vector.replicate 64 0x00000000#32
    scnt := 0#7
    wv := WorkVars.zero
    rcnt := 0#7
    h := ivRom
    err := .none
    errcmd := 0x00000000#32
    phase := .load }

/-- R296: HASH(), the pipeline PAD(); EXPAND(0); ROUND(0); FINAL() as one command. An error inside undoes all of it. -/
def hashBody : Body := fun s =>
  if s.phase ≠ .load then .error (.error .sequence)
  else do
    let padded ← padBody s
    let expanded ← expandBody 0#8 padded
    let compressed ← roundBody 0#8 expanded
    finalBody compressed

/-- The rule of each command (R191, R196, R221, R243, R270, R294, R295, R296) as what it does to the state before `exec`
commits it (R292). -/
def bodyOf : Instr → Body
  | .nop => nopBody
  | .init => fun s => .ok (initState s)
  | .push b => pushBody b
  | .pad => padBody
  | .expand arg => expandBody arg
  | .round arg => roundBody arg
  | .final => finalBody
  | .hash => hashBody

/-- NOP (R294) as `exec` runs it. -/
def execNop (s : State) : Host.Outcome State Fault Refusal :=
  runCommand (encode .nop) nopBody s

/-- INIT (R295) as `exec` runs it: in every phase, ERROR included (R292). -/
def execInit (s : State) : Host.Outcome State Fault Refusal :=
  .next (initState s)

/-- HASH (R296) as `exec` runs it. -/
def execHash (s : State) : Host.Outcome State Fault Refusal :=
  runCommand (encode .hash) hashBody s

/-- R297: an illegal word c as `exec` runs it: ILLEGAL_CMD, or nothing at all in ERROR (R315). -/
def execIllegal (c : Word) (s : State) : Host.Outcome State Fault Refusal :=
  runCommand c (fun _ => .error (.error .illegalCmd)) s

end Sys2Proof.Machine
end

