-- ==== Sys2Proof/Machine/Dispatch.lean ====
section
/-! DEFINITION. The dispatch `exec(c)` of R292 for the words that decode to a command: one arm per constructor. -/

namespace Sys2Proof.Machine

def exec (i : Instr) (s : State) : Host.Outcome State Fault Refusal :=
  match i with
  | .nop => Sys2Proof.Machine.execNop s
  | .init => Sys2Proof.Machine.execInit s
  | .push byte => Sys2Proof.Machine.execPush byte s
  | .pad => Sys2Proof.Machine.execPad s
  | .expand arg => Sys2Proof.Machine.execExpand arg s
  | .round arg => Sys2Proof.Machine.execRound arg s
  | .final => Sys2Proof.Machine.execFinal s
  | .hash => Sys2Proof.Machine.execHash s

end Sys2Proof.Machine
end

