-- ==== Sys2Proof/Machine/Agents.lean ====
section
/-! DEFINITION. The turns of the agents (R291): the engine's Complete, the host's accesses, the input rst_n. -/

namespace Sys2Proof.Machine

/-- R291: the end of Complete, `BUSY <- 0`. -/
def clearBusy : Host.Outcome State Fault Refusal → Host.Outcome State Fault Refusal
  | .next t => .next { t with busy := false }
  | .fault reason => .fault reason
  | .refused reason => .refused reason

/-- R292: `exec(c)` for any word c. -/
def execWord (c : Word) (s : State) : Host.Outcome State Fault Refusal :=
  match decode c with
  | .ok i => exec i s
  | .error _ => execIllegal c s

/-- R291: `Complete()`. -/
def complete (s : State) : Host.Outcome State Fault Refusal := clearBusy (execWord s.pend s)

/-- The engine's turn: Complete is enabled exactly when BUSY = 1 (R291); with BUSY = 0 the engine does nothing (R325). -/
def engineTurn (s : State) : Host.Outcome State Fault Refusal :=
  if s.busy then complete s else .next s

/-- R350: rst_n takes a level. While it is 0 every element of R30 has its reset value. -/
def setRstN (level : Bool) (s : State) : State :=
  if level then { s with rstN := true } else { resetEngine s with rstN := false }

/-- One step with rst_n = 1. An access that waits stays the first move and the engine has the turn (R354). -/
def runTurn (s : State) : Host.Outcome State Fault Refusal :=
  match s.moves with
  | [] => engineTurn s
  | .engine :: rest => engineTurn { s with moves := rest }
  | .rstN level :: rest => .next (setRstN level { s with moves := rest })
  | .read addr :: rest =>
    if misaligned addr then .refused (.misalignedAccess addr)
    else if readWaits s addr then engineTurn s
    else .next (hostRead addr { s with moves := rest })
  | .write addr v :: rest =>
    if misaligned addr then .refused (.misalignedAccess addr)
    else if writeWaits s then engineTurn s
    else .next (hostWrite addr v { s with moves := rest })

/-- One step with rst_n = 0, on a state held at its reset values (R350): writes are dropped and reads return 0 (R351). -/
def resetTurn (s : State) : Host.Outcome State Fault Refusal :=
  match s.moves with
  | [] => .next s
  | .engine :: rest => .next { s with moves := rest }
  | .rstN level :: rest => .next { s with moves := rest, rstN := level }
  | .read addr :: rest =>
    if misaligned addr then .refused (.misalignedAccess addr)
    else .next { s with moves := rest, replies := s.replies ++ [⟨addr, 0x00000000#32⟩] }
  | .write addr _ :: rest =>
    if misaligned addr then .refused (.misalignedAccess addr)
    else .next { s with moves := rest }

/-- R290, with the engine's turn next: the word stands in PEND and the very next step completes it (DESIGN CHOICE, log entry 17). -/
def placeCommand (c : Word) (s : State) : State :=
  { issueCommand c s with rstN := true, moves := .engine :: s.moves }

end Sys2Proof.Machine
end

