-- ==== Sys2Proof/Machine/Step.lean ====
section
/-! DEFINITION. One step of the machine (R291, R350), and the placing of an instruction where the next step runs it. -/

namespace Sys2Proof.Machine

def step (s : State) : Host.Outcome State Fault Refusal :=
  if s.rstN then runTurn s else resetTurn (resetEngine s)

/-- The word as IssueCommand (R290) leaves it, so that the very next step completes it (DESIGN CHOICE, log entry 17). Commands have
32 bits (R110); the bits above nbits are 0. -/
def State.withFetchWord (s : State) (nbits w : Nat) : State :=
  placeCommand (BitVec.ofNat 32 (w % 2 ^ nbits)) s

end Sys2Proof.Machine
end

