-- ==== Sys2Proof/Machine/Asm.lean ====
section
/-! DEFINITION. The assembler syntax (R118) and the pseudo-instructions (R119): from a line of text to host bus accesses,
and from those to the moves of a run. It is the host's side; the engine does not depend on it. DESIGN CHOICE for the details
R118 leaves open, log entries 16, 18 and 19. -/

namespace Sys2Proof.Machine

inductive Token where
  | word (text : List Char)
  /-- A quoted character, `'a'`. -/
  | quoted (c : Char)
  /-- A quoted string, for PUSHS and DIGEST. -/
  | text (cs : List Char)
  | comma
  deriving DecidableEq, Repr

inductive AsmError where
  /-- The line has no form of R118 or R119. -/
  | syntaxError
  /-- An operand outside its range: R118 "An operand outside 0..255 is an assembly error". -/
  | outOfRange (n : Nat)
  deriving DecidableEq, Repr

/-- R118: host bus operations. -/
inductive HostOp where
  | wr (addr : Addr) (value : Word)
  | rd (addr : Addr)
  | poll
  deriving DecidableEq, Repr

/-- Where the reading of a line stands. -/
inductive Lex where
  | gap
  | word (reversed : List Char)
  | quote
  | quoted (c : Char)
  | text (reversed : List Char)
  deriving DecidableEq, Repr

/-- The double quote. -/
def doubleQuote : Char := Char.ofNat 0x22

/-- The single quote. -/
def singleQuote : Char := Char.ofNat 0x27

def isBlank (c : Char) : Bool := c = ' ' || c = '\t'

/-- R118: the tokens of one line; `;` starts a comment. A text ends at the first double quote and has no escape, so it
cannot hold one; a `;`, a comma or a blank between quotes is that character. The spec is silent on both (DESIGN CHOICE,
log entry 18). -/
def lex : Lex → List Char → Option (List Token)
  | .gap, [] => some []
  | .gap, c :: cs =>
    if c = ';' then some []
    else if isBlank c then lex .gap cs
    else if c = ',' then (lex .gap cs).map (Token.comma :: ·)
    else if c = singleQuote then lex .quote cs
    else if c = doubleQuote then lex (.text []) cs
    else lex (.word [c]) cs
  | .word r, [] => some [.word r.reverse]
  | .word r, c :: cs =>
    if c = ';' then some [.word r.reverse]
    else if isBlank c then (lex .gap cs).map (Token.word r.reverse :: ·)
    else if c = ',' then (lex .gap cs).map fun ts => Token.word r.reverse :: Token.comma :: ts
    else lex (.word (c :: r)) cs
  | .quote, [] => none
  | .quote, c :: cs => lex (.quoted c) cs
  | .quoted _, [] => none
  | .quoted q, c :: cs => if c = singleQuote then (lex .gap cs).map (Token.quoted q :: ·) else none
  | .text _, [] => none
  | .text r, c :: cs =>
    if c = doubleQuote then (lex .gap cs).map (Token.text r.reverse :: ·) else lex (.text (c :: r)) cs

/-- The value of a digit in base 10 or 16. -/
def digitValue (c : Char) : Option Nat :=
  if 0x30 ≤ c.toNat ∧ c.toNat ≤ 0x39 then some (c.toNat - 0x30)
  else if 0x61 ≤ c.toNat ∧ c.toNat ≤ 0x66 then some (c.toNat - 0x61 + 10)
  else if 0x41 ≤ c.toNat ∧ c.toNat ≤ 0x46 then some (c.toNat - 0x41 + 10)
  else none

/-- A number in the base from its digits, most significant first. -/
def digitsValue (base : Nat) : Nat → List Char → Option Nat
  | acc, [] => some acc
  | acc, c :: cs =>
    match digitValue c with
    | some d => if d < base then digitsValue base (base * acc + d) cs else none
    | none => none

/-- R118: "in decimal, in hex (`0x61`)". -/
def numberOf : List Char → Option Nat
  | [] => none
  | ['0', 'x'] => none
  | '0' :: 'x' :: ds => digitsValue 16 0 ds
  | ds => digitsValue 10 0 ds

/-- R118: the number an operand token stands for. A quoted character has a code point of at most 255. R118 gives these
three forms for a byte or count only; the model takes them for the addresses and values of WR and RD too (DESIGN CHOICE,
log entry 19). -/
def operandOf : Token → Except AsmError Nat
  | .word cs =>
    match numberOf cs with
    | some n => .ok n
    | none => .error .syntaxError
  | .quoted c => if c.toNat ≤ 255 then .ok c.toNat else .error (.outOfRange c.toNat)
  | .text _ => .error .syntaxError
  | .comma => .error .syntaxError

/-- R118: a byte or count operand is 0..255. -/
def byteOf (n : Nat) : Except AsmError Byte :=
  if n ≤ 255 then .ok (BitVec.ofNat 8 n) else .error (.outOfRange n)

/-- R110: a command is delivered as one write of its word to CMD. -/
def issue (i : Instr) : HostOp := .wr 0x000#12 (encode i)

/-- R119: PUSHS, one PUSH per character; a code point above 255 is an assembly error. -/
def pushText : List Char → Except AsmError (List HostOp)
  | [] => .ok []
  | c :: cs => do
    let b ← byteOf c.toNat
    let rest ← pushText cs
    .ok (issue (.push b) :: rest)

/-- R118, R119: a mnemonic alone on its line. -/
def bareLine (m : List Char) : Except AsmError (List HostOp) :=
  if m = ['N', 'O', 'P'] then .ok [issue .nop]
  else if m = ['I', 'N', 'I', 'T'] then .ok [issue .init]
  else if m = ['P', 'A', 'D'] then .ok [issue .pad]
  else if m = ['E', 'X', 'P', 'A', 'N', 'D'] then .ok [issue (.expand 0#8)]
  else if m = ['R', 'O', 'U', 'N', 'D'] then .ok [issue (.round 0#8)]
  else if m = ['F', 'I', 'N', 'A', 'L'] then .ok [issue .final]
  else if m = ['H', 'A', 'S', 'H'] then .ok [issue .hash]
  else if m = ['E', 'X', 'P', 'A', 'N', 'D', 'A', 'L', 'L'] then .ok [issue (.expand 0#8)]
  else if m = ['R', 'O', 'U', 'N', 'D', 'A', 'L', 'L'] then .ok [issue (.round 0#8)]
  else if m = ['S', 'T', 'E', 'P'] then .ok [issue (.round 1#8)]
  else if m = ['P', 'O', 'L', 'L'] then .ok [.poll]
  else .error .syntaxError

/-- R118: a mnemonic with one operand. RD takes a 12-bit address. -/
def operandLine (m : List Char) (n : Nat) : Except AsmError (List HostOp) :=
  if m = ['P', 'U', 'S', 'H'] then (byteOf n).map fun b => [issue (.push b)]
  else if m = ['E', 'X', 'P', 'A', 'N', 'D'] then (byteOf n).map fun b => [issue (.expand b)]
  else if m = ['R', 'O', 'U', 'N', 'D'] then (byteOf n).map fun b => [issue (.round b)]
  else if m = ['R', 'D'] then
    if n < 2 ^ 12 then .ok [.rd (BitVec.ofNat 12 n)] else .error (.outOfRange n)
  else .error .syntaxError

/-- R119: a mnemonic with a string. -/
def textLine (m cs : List Char) : Except AsmError (List HostOp) :=
  if m = ['P', 'U', 'S', 'H', 'S'] then pushText cs
  else if m = ['D', 'I', 'G', 'E', 'S', 'T'] then (pushText cs).map fun ps => issue .init :: ps ++ [issue .hash]
  else .error .syntaxError

/-- R118: `WR <addr>, <value>`. -/
def writeLine (m : List Char) (a v : Nat) : Except AsmError (List HostOp) :=
  if m = ['W', 'R'] then
    if 2 ^ 12 ≤ a then .error (.outOfRange a)
    else if 2 ^ 32 ≤ v then .error (.outOfRange v)
    else .ok [.wr (BitVec.ofNat 12 a) (BitVec.ofNat 32 v)]
  else .error .syntaxError

/-- R118, R119: the host accesses of the tokens of one line. The operands of WR and RD have the forms of a byte or count
(DESIGN CHOICE, log entry 19). -/
def assembleTokens : List Token → Except AsmError (List HostOp)
  | [] => .ok []
  | [.word m] => bareLine m
  | [.word m, .text cs] => textLine m cs
  | [.word m, t] => do
    let n ← operandOf t
    operandLine m n
  | [.word m, a, .comma, v] => do
    let addr ← operandOf a
    let value ← operandOf v
    writeLine m addr value
  | _ => .error .syntaxError

/-- R118: one line of text. -/
def assembleLine (line : List Char) : Except AsmError (List HostOp) :=
  match lex .gap line with
  | some ts => assembleTokens ts
  | none => .error .syntaxError

/-- R118: "One command per line". -/
def assemble : List (List Char) → Except AsmError (List HostOp)
  | [] => .ok []
  | line :: lines => do
    let ops ← assembleLine line
    let rest ← assemble lines
    .ok (ops ++ rest)

/-- The moves of one host access. POLL is "read STATUS until BUSY = 0"; `polls` is how many of its reads find
BUSY = 1 (R358 leaves it open, DESIGN CHOICE, log entry 16). -/
def movesOf (polls : Nat) : HostOp → List Move
  | .wr addr v => [.write addr v]
  | .rd addr => [.read addr]
  | .poll => List.replicate polls (.read 0x004#12) ++ [.engine, .read 0x004#12]

end Sys2Proof.Machine
end

