-- ==== Sys2Proof/Machine/Reference.lean ====
section
/-! DEFINITION. The source's pure function from a message to a digest (R2, R50, R298, C6), over lists, beside the engine
that must compute it: padding (R192), the block's words (R87), the schedule (R220), the rounds (R240), the fold (R270).
It shares with the engine the padding function and the arithmetic of one step, not the engine's state. -/

namespace Sys2Proof.Machine

/-- R87: the words of a list of bytes, the first byte of each four most significant. -/
def wordsOf : List Byte → List Word
  | b0 :: b1 :: b2 :: b3 :: rest => pack4 b0 b1 b2 b3 :: wordsOf rest
  | _ => []

/-- R220: the word that follows the first ones of a schedule (of 16 or more). -/
def followingWord (ws : List Word) : Word :=
  scheduleWord (ws.getD (ws.length - 16) 0#32) (ws.getD (ws.length - 15) 0#32) (ws.getD (ws.length - 7) 0#32)
    (ws.getD (ws.length - 2) 0#32)

/-- R220: n more words of a schedule. -/
def extendSchedule : Nat → List Word → List Word
  | 0, ws => ws
  | n + 1, ws => extendSchedule n (ws ++ [followingWord ws])

/-- R38: the 64-word message schedule of a one-block message. -/
def scheduleOf (m : List Byte) : List Word := extendSchedule 48 (wordsOf (pad m))

/-- R240, R244: the working state after the first r rounds from IV over the schedule ws. -/
def workAfter (r : Nat) (ws : List Word) : WorkVars :=
  ((kList.zip ws).take r).foldl (fun v kw => nextWork v kw.1 kw.2) (workOf ivRom)

/-- R298: the digest H of a message of at most 55 bytes. -/
def sha256 (m : List Byte) : Vector Word 8 := foldWork ivRom (workAfter 64 (scheduleOf m))

/-- R36, R37: the message the engine holds, BLK[0..MSGLEN-1]. -/
def State.message (s : State) : List Byte := s.blk.toList.take s.msglen.toNat

end Sys2Proof.Machine
end

