-- ==== Sys2Proof/Safety.lean ====
section
/-! DEFINITION. What claims are stated in: the phase invariants (R48), the meaning of the data each phase holds (R37 to
R42), the legality table (R293), the errors of each command (R313), launch states and the end of a run (R360, R361). -/

namespace Sys2Proof.Machine

/-- R48: the row of a phase. The row of ERROR is any row ("as found"), so it is said of the phase before the error. -/
def Row (p : Phase) (s : State) : Prop :=
  match p with
  | .idle =>
    s.msglen = 0#6 ∧ s.scnt = 0#7 ∧ s.rcnt = 0#7 ∧ s.h = Vector.replicate 8 0#32 ∧
    s.blk = Vector.replicate 64 0#8 ∧ s.w = Vector.replicate 64 0#32 ∧ s.wv = WorkVars.zero
  | .load =>
    s.msglen.toNat ≤ 55 ∧ s.scnt = 0#7 ∧ s.rcnt = 0#7 ∧ s.h = ivRom ∧
    (∀ j, s.msglen.toNat ≤ j → j < 64 → s.blkAt j = 0#8) ∧ s.w = Vector.replicate 64 0#32 ∧ s.wv = WorkVars.zero
  | .padded => s.msglen.toNat ≤ 55 ∧ 16 ≤ s.scnt.toNat ∧ s.scnt.toNat ≤ 63 ∧ s.rcnt = 0#7 ∧ s.h = ivRom
  | .expanded => s.msglen.toNat ≤ 55 ∧ s.scnt = 64#7 ∧ s.rcnt = 0#7 ∧ s.h = ivRom
  | .compress =>
    s.msglen.toNat ≤ 55 ∧ s.scnt = 64#7 ∧ 1 ≤ s.rcnt.toNat ∧ s.rcnt.toNat ≤ 63 ∧ s.h = ivRom
  | .compressed => s.msglen.toNat ≤ 55 ∧ s.scnt = 64#7 ∧ s.rcnt = 64#7 ∧ s.h = ivRom
  | .done => s.msglen.toNat ≤ 55 ∧ s.scnt = 64#7 ∧ s.rcnt = 64#7 ∧ s.h = foldWork ivRom s.wv
  | .error => False

/-- R48 (the rows), R32, R33, I10 (the error record) and R350 (the hold while rst_n = 0), for every state, busy or
not. -/
structure PhaseInv (s : State) : Prop where
  row : ∃ p, (s.phase = p ∨ s.phase = .error) ∧ Row p s
  err_iff : s.err ≠ .none ↔ s.phase = .error
  errcmd_zero : s.err = .none → s.errcmd = 0#32
  err_codes : s.err ≠ .paddingInvariant ∧ s.err ≠ .primeSearchExhausted
  held : s.rstN = false → resetEngine s = s

/-- What the data mean (R37 to R41): after PAD the block is the padded message; the first SCNT schedule words are the
message's schedule and the others 0; after the first ROUND the working state is that of RCNT rounds. -/
structure DataInv (s : State) : Prop where
  phases : PhaseInv s
  block : s.scnt ≠ 0#7 → s.blk.toList = pad s.message
  schedule : ∀ i, i < 64 →
    s.wAt i = if i < s.scnt.toNat then (scheduleOf s.message).getD i 0#32 else 0#32
  work : s.wv = if s.rcnt = 0#7 then WorkVars.zero else workAfter s.rcnt.toNat (scheduleOf s.message)

/-- R293: "ok" (true) or "SEQ" (false) for a command in a phase other than ERROR. -/
def legal : Instr → Phase → Bool
  | .nop, _ => true
  | .init, _ => true
  | .push _, p => p == .load
  | .pad, p => p == .load
  | .expand _, p => p == .padded
  | .round _, p => p == .expanded || p == .compress
  | .final, p => p == .compressed
  | .hash, p => p == .load

/-- R313: the errors a well-formed word of each command can raise. -/
def errorsOf : Instr → List ErrCode
  | .nop => []
  | .init => []
  | .push _ => [.sequence, .msgTooLong]
  | .pad => [.sequence, .paddingInvariant]
  | .expand _ => [.sequence, .badCount]
  | .round _ => [.sequence, .badCount]
  | .final => [.sequence]
  | .hash => [.sequence, .paddingInvariant]

/-- The elements of R30 but BUSY and PEND: what a computation is (R50). -/
structure SameComputation (s t : State) : Prop where
  phase : t.phase = s.phase
  err : t.err = s.err
  errcmd : t.errcmd = s.errcmd
  msglen : t.msglen = s.msglen
  blk : t.blk = s.blk
  w : t.w = s.w
  scnt : t.scnt = s.scnt
  wv : t.wv = s.wv
  rcnt : t.rcnt = s.rcnt
  h : t.h = s.h

/-- R298: the words of a program, executed one after another. -/
def execWords : List Word → State → Host.Outcome State Fault Refusal
  | [], s => .next s
  | c :: cs, s =>
    match execWord c s with
    | .next t => execWords cs t
    | .fault reason => .fault reason
    | .refused reason => .refused reason

/-- R361: the launch state `afterReset`, whatever the host will do. -/
def AfterReset (s : State) : Prop := resetEngine s = s ∧ s.rstN = true

/-- R361: the launch state `afterInit`, "any state followed by a completed INIT": the engine, out of reset, completes the
INIT in flight. -/
def AfterInit (s : State) : Prop :=
  ∃ u : State, u.rstN = true ∧ u.busy = true ∧ u.pend = 0x01000000#32 ∧ complete u = .next s

/-- R360: the run has ended: the host has made its last access and no command is in flight. -/
def Ended (s : State) : Prop := s.moves = [] ∧ s.busy = false

/-- R360: a run is successful exactly when it ends with PHASE = DONE. -/
def Successful (s : State) : Prop := Ended s ∧ s.phase = .done

/-- R360: a run that ends with PHASE = ERROR has faulted. -/
def Faulted (s : State) : Prop := Ended s ∧ s.phase = .error

/-- The host's accesses still to come are all aligned (R81), so none is refused. -/
def Aligned (s : State) : Prop :=
  ∀ mv ∈ s.moves,
    match mv with
    | .read addr => misaligned addr = false
    | .write addr _ => misaligned addr = false
    | .engine => True
    | .rstN _ => True

/-- The engine has the turn, and these moves remain after it: no move is left, the host yields, or the next access
waits for BUSY = 0 (R291, R354). -/
def EngineHasTurn (s : State) (rest : List Move) : Prop :=
  (s.moves = [] ∧ rest = []) ∨
  s.moves = .engine :: rest ∨
  (s.moves = rest ∧ ∃ addr later, rest = .read addr :: later ∧ misaligned addr = false ∧ regOf addr ≠ .status) ∨
  (s.moves = rest ∧ ∃ addr v later, rest = .write addr v :: later ∧ misaligned addr = false)

end Sys2Proof.Machine
end

