-- ==== Sys2Proof/Certificates/Slice0/Obligations.lean ====
section
/-! DEFINITION. The statements for the provers, one `def Obligations.<Name> : Prop` each; OBLIGATIONS.json lists them with
the rules of spec/ they rest on. A frame is written as an equation: `t = { s with x := t.x }` says that every element of
the state but x is unchanged. -/

open Sys2Proof Sys2Proof.Machine

/-! Encoding -/

/-- Decoding and encoding agree in both directions, for every command and every operand (R113, R117). -/
def Obligations.DecodeEncodeAgree : Prop :=
  (∀ i, decode (encode i) = .ok i) ∧ (∀ c i, decode c = .ok i → encode i = c)

/-- R114: a word is well-formed exactly when it selects a row of the opcode map; and no word selects two rows (R113).
-/
def Obligations.WellFormedIffSelectsRow : Prop :=
  (∀ c : Word, wellFormed c = true ↔ ∃ row ∈ opcodeRows, selects c row = true) ∧
  opcodeRows.Pairwise fun r r' => ∀ c : Word, ¬(selects c r = true ∧ selects c r' = true)

/-- R117: the decoder, word by word: illegal exactly when not well-formed, and otherwise the command of the opcode
with ARG as its operand. -/
def Obligations.DecoderFollowsOpcode : Prop :=
  ∀ c : Word,
    (wellFormed c = false → ∃ why, decode c = .error why) ∧
    (wellFormed c = true →
      decode c = .ok (match (c.extractLsb' 24 8).toNat with
        | 0x00 => .nop
        | 0x01 => .init
        | 0x02 => .push (c.extractLsb' 0 8)
        | 0x03 => .pad
        | 0x04 => .expand (c.extractLsb' 0 8)
        | 0x05 => .round (c.extractLsb' 0 8)
        | 0x06 => .final
        | _ => .hash))

/-- Words written out from R113 and R115 decode to what they stand for. -/
def Obligations.WrittenWordsDecode : Prop :=
  decode 0b00000000000000000000000000000000#32 = .ok .nop ∧
  decode 0b00000001000000000000000000000000#32 = .ok .init ∧
  decode 0b00000010000000000000000001100001#32 = .ok (.push 0x61#8) ∧
  decode 0b00000011000000000000000000000000#32 = .ok .pad ∧
  decode 0b00000100000000000000000000110001#32 = .ok (.expand 49#8) ∧
  decode 0b00000101000000000000000001000000#32 = .ok (.round 64#8) ∧
  decode 0b00000110000000000000000000000000#32 = .ok .final ∧
  decode 0b00000111000000000000000000000000#32 = .ok .hash ∧
  decode 0x08000000#32 = .error .unknownOpcode ∧
  decode 0x02000100#32 = .error .reservedNotZero ∧
  decode 0x03000001#32 = .error .argNotZero

/-! Issue and completion -/

/-- R290, R291, R292: with the engine's turn (DESIGN CHOICE, log entry 1), a step is `exec` of the command in PEND,
then BUSY <- 0; a word that is no command raises ILLEGAL_CMD, or nothing in ERROR. Around `exec` the step takes the
host's yielding move away. -/
def Obligations.StepRunsDecodedCommand : Prop :=
  ∀ (s : State) (rest : List Move), s.rstN = true → s.busy = true → EngineHasTurn s rest →
    (∀ i, decode s.pend = .ok i → step s = clearBusy (exec i { s with moves := rest })) ∧
    (∀ why, decode s.pend = .error why → step s = clearBusy (execIllegal s.pend { s with moves := rest }))

/-- R290 (the host's moves are DESIGN CHOICE, log entry 1): a write to CMD with BUSY = 0 leaves the word in PEND and
BUSY = 1, whatever the word and PHASE are, and changes nothing else. -/
def Obligations.WriteToCmdIssuesTheWord : Prop :=
  ∀ (s : State) (v : Word) (rest : List Move), s.rstN = true → s.busy = false → s.moves = .write 0x000#12 v :: rest →
    step s = .next { s with pend := v, busy := true, moves := rest }

/-- R84: a write to any other address, read-only or reserved, has no effect on any state and raises no error. -/
def Obligations.WriteElsewhereHasNoEffect : Prop :=
  ∀ (s : State) (addr : Addr) (v : Word) (rest : List Move), s.rstN = true → s.busy = false →
    s.moves = .write addr v :: rest → misaligned addr = false → addr ≠ 0x000#12 →
    step s = .next { s with moves := rest }

/-- R358, R291, R350: with a command in flight, whatever the host and the reset input do (DESIGN CHOICE, log entry 1),
BUSY is 0 again within one step more than the moves that stand. With no reset ahead it falls by the command's
completion: up to the host's STATUS reads and moves used up, the state reached is that of `complete`. A reset abandons
the command (R350). -/
def Obligations.BusyCommandCompletes : Prop :=
  ∀ s : State, PhaseInv s → Aligned s → s.rstN = true → s.busy = true →
    ∃ k, k ≤ s.moves.length + 1 ∧ ∃ t, core.run k s = .next t ∧ t.busy = false ∧
      (Move.rstN false ∉ s.moves →
        ∃ u, u = { s with moves := u.moves, replies := u.replies, draws := u.draws } ∧ complete u = .next t)

/-! The commands: what each does, what it leaves unchanged, and that it completes -/

/-- R294: NOP is the word 0x00000000 alone, and changes nothing in any phase. -/
def Obligations.NopChangesNothing : Prop :=
  (∀ c : Word, decode c = .ok .nop ↔ c = 0x00000000#32) ∧ ∀ s : State, exec .nop s = .next s

/-- R295: INIT is the word 0x01000000 alone; in every phase it sets these elements, and leaves BUSY and PEND (and the
model's own fields). -/
def Obligations.InitOpensComputation : Prop :=
  (∀ c : Word, decode c = .ok .init ↔ c = 0x01000000#32) ∧
  ∀ s : State, ∃ t, exec .init s = .next t ∧
    t.phase = .load ∧ t.err = .none ∧ t.errcmd = 0#32 ∧ t.msglen = 0#6 ∧ t.scnt = 0#7 ∧ t.rcnt = 0#7 ∧
    (∀ j, j < 64 → t.blkAt j = 0#8) ∧ (∀ i, i < 64 → t.wAt i = 0#32) ∧ (∀ i : Fin 8, t.wv.at i = 0#32) ∧
    (∀ i, i < 8 → t.hAt i = ivAt i) ∧
    t = { s with
      phase := t.phase, err := t.err, errcmd := t.errcmd, msglen := t.msglen, scnt := t.scnt, rcnt := t.rcnt,
      blk := t.blk, w := t.w, wv := t.wv, h := t.h }

/-- R191: PUSH in LOAD with MSGLEN < 55 writes one byte and counts it; the 56th raises MSG_TOO_LONG, one outside LOAD
raises SEQUENCE, and one in ERROR is ignored. -/
def Obligations.PushAppendsOneByte : Prop :=
  ∀ (b : Byte) (s : State),
    (∀ c : Word, decode c = .ok (.push b) ↔ c = 0x02#8 ++ 0#16 ++ b) ∧
    (s.phase = .load → s.msglen.toNat < 55 →
      ∃ t, exec (.push b) s = .next t ∧
        t.blkAt s.msglen.toNat = b ∧ (∀ j, j ≠ s.msglen.toNat → t.blkAt j = s.blkAt j) ∧
        t.msglen.toNat = s.msglen.toNat + 1 ∧
        t = { s with blk := t.blk, msglen := t.msglen }) ∧
    (s.phase = .load → s.msglen = 55#6 →
      exec (.push b) s = .next { s with phase := .error, err := .msgTooLong, errcmd := 0x02#8 ++ 0#16 ++ b }) ∧
    (s.phase ≠ .load → s.phase ≠ .error →
      exec (.push b) s = .next { s with phase := .error, err := .sequence, errcmd := 0x02#8 ++ 0#16 ++ b }) ∧
    (s.phase = .error → exec (.push b) s = .next s)

/-- R190, R191, R36: pushing bytes to a total of at most 55 makes the message exactly the bytes pushed, in order,
after those already held. -/
def Obligations.PushesBuildTheMessage : Prop :=
  ∀ (bs : List Byte) (s : State), s.phase = .load → s.msglen.toNat + bs.length ≤ 55 →
    ∃ t, execWords (bs.map fun b => encode (.push b)) s = .next t ∧
      t.message = s.message ++ bs ∧ t.msglen.toNat = s.msglen.toNat + bs.length ∧
      t = { s with blk := t.blk, msglen := t.msglen }

/-- R196: PAD in LOAD makes the block the padded message (R192), loads the first sixteen schedule words and leaves the
others, MSGLEN, H and WV; outside LOAD it raises SEQUENCE. -/
def Obligations.PadFormsBlockAndSchedule : Prop :=
  (∀ c : Word, decode c = .ok .pad ↔ c = 0x03000000#32) ∧
  ∀ s : State,
    (s.phase = .load → s.msglen.toNat ≤ 55 →
      ∃ t, exec .pad s = .next t ∧
        t.phase = .padded ∧ t.scnt = 16#7 ∧
        t.blk.toList = pad s.message ∧
        (∀ j, j < 16 → t.wAt j =
          t.blkAt (4 * j) ++ t.blkAt (4 * j + 1) ++ t.blkAt (4 * j + 2) ++ t.blkAt (4 * j + 3)) ∧
        (∀ i, 16 ≤ i → t.wAt i = s.wAt i) ∧
        t = { s with phase := t.phase, scnt := t.scnt, blk := t.blk, w := t.w }) ∧
    (s.phase ≠ .load → s.phase ≠ .error →
      exec .pad s = .next { s with phase := .error, err := .sequence, errcmd := 0x03000000#32 })

/-- R194: the padded block byte by byte: the message, 0x80, zeros to index 55, the bit length big-endian. -/
def Obligations.PaddedBlockLayout : Prop :=
  ∀ s t : State, s.phase = .load → s.msglen.toNat ≤ 55 → exec .pad s = .next t →
    (∀ j, j < s.msglen.toNat → t.blkAt j = s.blkAt j) ∧
    t.blkAt s.msglen.toNat = 0x80#8 ∧
    (∀ j, s.msglen.toNat < j → j < 56 → t.blkAt j = 0x00#8) ∧
    (∀ j, 56 ≤ j → j < 62 → t.blkAt j = 0x00#8) ∧
    256 * (t.blkAt 62).toNat + (t.blkAt 63).toNat = 8 * s.msglen.toNat

/-- R193: with MSGLEN in 0..55 neither PAD nor HASH raises PADDING_INVARIANT. -/
def Obligations.PaddingCheckNeverFails : Prop :=
  ∀ s t : State, s.msglen.toNat ≤ 55 → s.err ≠ .paddingInvariant →
    (exec .pad s = .next t ∨ exec .hash s = .next t) → t.err ≠ .paddingInvariant

/-- R220, R221: EXPAND in PADDED with a count that remains: each new word is computed from the words before it, the
others stay, SCNT counts the steps, and PHASE becomes EXPANDED exactly when all 64 words are final. -/
def Obligations.ExpandComputesScheduleWords : Prop :=
  ∀ (arg : Byte) (s : State), s.phase = .padded → 16 ≤ s.scnt.toNat → s.scnt.toNat ≤ 63 →
    arg.toNat ≤ 64 - s.scnt.toNat →
    ∃ t n, exec (.expand arg) s = .next t ∧
      n = (if arg = 0#8 then 64 - s.scnt.toNat else arg.toNat) ∧
      t.scnt.toNat = s.scnt.toNat + n ∧
      (∀ i, s.scnt.toNat ≤ i → i < s.scnt.toNat + n →
        t.wAt i = t.wAt (i - 16) + lowerS0 (t.wAt (i - 15)) + t.wAt (i - 7) + lowerS1 (t.wAt (i - 2))) ∧
      (∀ i, i < s.scnt.toNat ∨ s.scnt.toNat + n ≤ i → t.wAt i = s.wAt i) ∧
      t.phase = (if s.scnt.toNat + n = 64 then .expanded else .padded) ∧
      t = { s with phase := t.phase, scnt := t.scnt, w := t.w }

/-- R221: "the result after any split into EXPAND commands is the same as one `EXPAND 0`", and as one EXPAND of the
sum. -/
def Obligations.ExpandSplitsAgree : Prop :=
  ∀ (p q r : Byte) (s : State), s.phase = .padded → 16 ≤ s.scnt.toNat → s.scnt.toNat ≤ 63 →
    p ≠ 0#8 → q ≠ 0#8 →
    (p.toNat < 64 - s.scnt.toNat →
      ∃ t, exec (.expand p) s = .next t ∧ exec (.expand 0#8) t = exec (.expand 0#8) s) ∧
    (r.toNat = p.toNat + q.toNat → r.toNat ≤ 64 - s.scnt.toNat →
      ∃ t, exec (.expand p) s = .next t ∧ exec (.expand q) t = exec (.expand r) s)

/-- The model's choice (DESIGN CHOICE, log entry 7), where R220 "requires i = SCNT, 16 <= i <= 63": with SCNT < 16 in
PADDED, a state no run reaches, EXPAND of a count that remains is the named fault. -/
def Obligations.ExpandBelowSixteenFaults : Prop :=
  ∀ (arg : Byte) (s : State), s.phase = .padded → s.scnt.toNat < 16 → arg.toNat ≤ 64 - s.scnt.toNat →
    exec (.expand arg) s = .fault .scheduleNotLoaded

/-- R240: one round i = RCNT from COMPRESS: all eight working variables at once, and RCNT. After round 63 PHASE is
COMPRESSED (R243). -/
def Obligations.OneRoundUpdatesWorkingState : Prop :=
  ∀ s : State, s.phase = .compress → s.rcnt.toNat ≤ 63 →
    ∃ t t1 t2, exec (.round 1#8) s = .next t ∧
      t1 = s.wv.h + upperS1 s.wv.e + ch s.wv.e s.wv.f s.wv.g + kAt s.rcnt.toNat + s.wAt s.rcnt.toNat ∧
      t2 = upperS0 s.wv.a + maj s.wv.a s.wv.b s.wv.c ∧
      t.wv = ⟨t1 + t2, s.wv.a, s.wv.b, s.wv.c, s.wv.d + t1, s.wv.e, s.wv.f, s.wv.g⟩ ∧
      t.rcnt.toNat = s.rcnt.toNat + 1 ∧
      t.phase = (if s.rcnt.toNat = 63 then .compressed else .compress) ∧
      t = { s with phase := t.phase, wv := t.wv, rcnt := t.rcnt }

/-- R243, R242: ROUND with a count that remains runs the rounds RCNT, RCNT+1, ... in order, from H when EXPANDED and
from the current working state when COMPRESS; it writes only WV, RCNT and PHASE. -/
def Obligations.RoundRunsTheRounds : Prop :=
  ∀ (arg : Byte) (s : State), s.phase = .expanded ∨ s.phase = .compress → s.rcnt.toNat ≤ 63 →
    arg.toNat ≤ 64 - s.rcnt.toNat →
    ∃ t n, exec (.round arg) s = .next t ∧
      n = (if arg = 0#8 then 64 - s.rcnt.toNat else arg.toNat) ∧
      t.rcnt.toNat = s.rcnt.toNat + n ∧
      t.wv = (List.range' s.rcnt.toNat n).foldl (fun v i => nextWork v (kAt i) (s.wAt i))
        (if s.phase = .expanded then
          ⟨s.hAt 0, s.hAt 1, s.hAt 2, s.hAt 3, s.hAt 4, s.hAt 5, s.hAt 6, s.hAt 7⟩ else s.wv) ∧
      t.phase = (if s.rcnt.toNat + n = 64 then .compressed else .compress) ∧
      t = { s with phase := t.phase, rcnt := t.rcnt, wv := t.wv }

/-- R243: splitting the rounds over several ROUND commands gives the same state as one `ROUND 0`, and as one ROUND of
the sum. -/
def Obligations.RoundSplitsAgree : Prop :=
  ∀ (p q r : Byte) (s : State), s.phase = .expanded ∨ s.phase = .compress → s.rcnt.toNat ≤ 63 →
    p ≠ 0#8 → q ≠ 0#8 →
    (p.toNat < 64 - s.rcnt.toNat →
      ∃ t, exec (.round p) s = .next t ∧ exec (.round 0#8) t = exec (.round 0#8) s) ∧
    (r.toNat = p.toNat + q.toNat → r.toNat ≤ 64 - s.rcnt.toNat →
      ∃ t, exec (.round p) s = .next t ∧ exec (.round q) t = exec (.round r) s)

/-- R112, R221, R243: a count above the remaining steps raises BAD_COUNT with no effect; it is not clamped. The words
in ERRCMD are those of the commands. -/
def Obligations.CountAboveRemainingIsRefused : Prop :=
  ∀ (arg : Byte) (s : State),
    (s.phase = .padded → 64 - s.scnt.toNat < arg.toNat →
      exec (.expand arg) s = .next { s with phase := .error, err := .badCount, errcmd := 0x04#8 ++ 0#16 ++ arg }) ∧
    (s.phase = .expanded ∨ s.phase = .compress → 64 - s.rcnt.toNat < arg.toNat →
      exec (.round arg) s = .next { s with phase := .error, err := .badCount, errcmd := 0x05#8 ++ 0#16 ++ arg })

/-- R270: FINAL in COMPRESSED adds the eight pairs, each modulo 2^32 on its own, and leaves all but H and PHASE;
outside COMPRESSED it raises SEQUENCE. -/
def Obligations.FinalFoldsWorkingState : Prop :=
  (∀ c : Word, decode c = .ok .final ↔ c = 0x06000000#32) ∧
  ∀ s : State,
    (s.phase = .compressed →
      ∃ t, exec .final s = .next t ∧ t.phase = .done ∧
        (∀ i : Fin 8, (t.hAt i.val).toNat = ((s.hAt i.val).toNat + (s.wv.at i).toNat) % 2 ^ 32) ∧
        t = { s with phase := t.phase, h := t.h }) ∧
    (s.phase ≠ .compressed → s.phase ≠ .error →
      exec .final s = .next { s with phase := .error, err := .sequence, errcmd := 0x06000000#32 })

/-- R296: HASH in LOAD leaves the state that `PAD; EXPAND 0; ROUND 0; FINAL` leaves (RCNT is 0 in LOAD, R48); outside
LOAD it raises SEQUENCE. -/
def Obligations.HashIsThePipeline : Prop :=
  (∀ c : Word, decode c = .ok .hash ↔ c = 0x07000000#32) ∧
  ∀ s : State,
    (s.phase = .load → s.msglen.toNat ≤ 55 → s.rcnt = 0#7 →
      ∃ p e c t, exec .pad s = .next p ∧ exec (.expand 0#8) p = .next e ∧ exec (.round 0#8) e = .next c ∧
        exec .final c = .next t ∧ exec .hash s = .next t ∧ t.phase = .done) ∧
    (s.phase ≠ .load → s.phase ≠ .error →
      exec .hash s = .next { s with phase := .error, err := .sequence, errcmd := 0x07000000#32 })

/-- R296, R298: HASH on an open computation ends in DONE with H the pure function of the message bytes (padding,
schedule, 64 rounds from IV, fold), and leaves MSGLEN, the error record, BUSY and PEND. -/
def Obligations.HashComputesTheDigest : Prop :=
  ∀ s : State, s.phase = .load → s.msglen.toNat ≤ 55 → s.rcnt = 0#7 → s.h = ivRom →
    ∃ t, exec .hash s = .next t ∧ t.phase = .done ∧
      t.h = sha256 s.message ∧ t.blk.toList = pad s.message ∧ t.w.toList = scheduleOf s.message ∧
      t.scnt = 64#7 ∧ t.rcnt = 64#7 ∧
      t = { s with
        phase := t.phase, blk := t.blk, w := t.w, scnt := t.scnt, wv := t.wv, rcnt := t.rcnt, h := t.h }

/-- R353, R298, R360 (the host's moves are DESIGN CHOICE, log entry 1): a host that writes INIT, one PUSH for each
byte of a message of at most 55 bytes, and HASH to CMD, whatever state it finds the engine in (no command in flight),
ends its run successfully, with H the digest of that message. Each write takes one step and its completion another. -/
def Obligations.BootSequenceHashesAnyMessage : Prop :=
  ∀ (m : List Byte) (s : State), m.length ≤ 55 → s.rstN = true → s.busy = false →
    s.moves = (0x01000000#32 :: (m.map fun b => (0x02#8 ++ 0#16 ++ b : Word)) ++ [0x07000000#32]).map (Move.write 0x000#12) →
    ∃ t, core.run (2 * (m.length + 2)) s = .next t ∧ Successful t ∧ t.err = .none ∧ t.h = sha256 m ∧ t.message = m

/-! Legality and errors -/

/-- R293: in a phase other than ERROR, a command the table marks SEQ raises SEQUENCE and changes only PHASE, ERR and
ERRCMD; one it marks ok, in a state that meets the invariants of R48, runs its rule: `exec` commits the state the
command's body gives, or enters ERROR with the body's error, which is not SEQUENCE; in ERROR all but INIT are ignored and
INIT runs its rule; an illegal word raises ILLEGAL_CMD, or is ignored in ERROR. -/
def Obligations.LegalityTableHolds : Prop :=
  ∀ (i : Instr) (s : State),
    (s.phase ≠ .error → legal i s.phase = false →
      exec i s = .next { s with phase := .error, err := .sequence, errcmd := encode i }) ∧
    (s.phase ≠ .error → legal i s.phase = true → PhaseInv s →
      ∃ t, exec i s = .next t ∧ t.err ≠ .sequence ∧
        (bodyOf i s = .ok t ∨
          ∃ code, bodyOf i s = .error (.error code) ∧ code ≠ .sequence ∧
            t = { s with phase := .error, err := code, errcmd := encode i })) ∧
    (s.phase = .error → i ≠ .init → exec i s = .next s) ∧
    (s.phase = .error → ∃ t, exec .init s = .next t ∧ bodyOf .init s = .ok t ∧ t.phase = .load) ∧
    (∀ c : Word, wellFormed c = false → ∃ t, execWord c s = .next t ∧
      (s.phase ≠ .error → t.err = .illegalCmd ∧ t.phase = .error) ∧ (s.phase = .error → t = s))

/-- R297, R115, R314: a word that is not well-formed raises ILLEGAL_CMD in every phase except ERROR, whatever error
its opcode would raise; in ERROR it is ignored. -/
def Obligations.IllegalWordRaisesIllegalCmd : Prop :=
  ∀ (c : Word) (s : State), wellFormed c = false →
    (s.phase ≠ .error →
      execWord c s = .next { s with phase := .error, err := .illegalCmd, errcmd := c }) ∧
    (s.phase = .error → execWord c s = .next s)

/-- R315: in ERROR every word other than exactly 0x01000000 completes with no effect at all; reads work as in every
phase (STATUS shows PHASE itself), and HEXn read 0. -/
def Obligations.ErrorPhaseIgnoresAllButInit : Prop :=
  ∀ (c : Word) (s : State), s.phase = .error →
    (c ≠ 0x01000000#32 → execWord c s = .next s) ∧
    (c = 0x01000000#32 → execWord c s = .next (initState s)) ∧
    (∀ upper p r, r ≠ .status → (∀ n, r ≠ .hex n) → readReg upper s r = readReg upper { s with phase := p } r) ∧
    (∀ upper n, readReg upper s (.hex n) = 0#32)

/-- R312, R313: an error raised by a word is one of its command's (ILLEGAL_CMD where it is none), ERRCMD is the word,
and the state is the state before it but for PHASE, ERR and ERRCMD. -/
def Obligations.ErrorsArePreciseAndListed : Prop :=
  ∀ (c : Word) (s t : State), s.phase ≠ .error → execWord c s = .next t → t.phase = .error →
    (∀ i, decode c = .ok i → t.err ∈ errorsOf i) ∧ (wellFormed c = false → t.err = .illegalCmd) ∧
    t.errcmd = c ∧
    t = { s with phase := t.phase, err := t.err, errcmd := t.errcmd }

/-- R318: PHASE = DONE is reached only by a FINAL or a HASH. -/
def Obligations.DoneOnlyByFinalOrHash : Prop :=
  ∀ (i : Instr) (s t : State), exec i s = .next t → s.phase ≠ .done → t.phase = .done → i = .final ∨ i = .hash

/-- R30, "written by": which commands may change each element: PHASE all but NOP, ERR and ERRCMD an error or INIT;
PEND and BUSY and the model's own fields are no command's. -/
def Obligations.EachElementHasItsWriters : Prop :=
  ∀ (i : Instr) (s t : State), exec i s = .next t →
    (t.phase ≠ s.phase → i ≠ .nop) ∧
    (t.err ≠ s.err → (s.phase ≠ .error ∧ t.phase = .error) ∨ i = .init) ∧
    (t.errcmd ≠ s.errcmd → (s.phase ≠ .error ∧ t.phase = .error) ∨ i = .init) ∧
    (t.blk ≠ s.blk → (∃ b, i = .push b) ∨ i = .pad ∨ i = .hash ∨ i = .init) ∧
    (t.msglen ≠ s.msglen → (∃ b, i = .push b) ∨ i = .init) ∧
    (t.w ≠ s.w → i = .pad ∨ (∃ n, i = .expand n) ∨ i = .hash ∨ i = .init) ∧
    (t.scnt ≠ s.scnt → i = .pad ∨ (∃ n, i = .expand n) ∨ i = .hash ∨ i = .init) ∧
    (t.wv ≠ s.wv → (∃ n, i = .round n) ∨ i = .hash ∨ i = .init) ∧
    (t.rcnt ≠ s.rcnt → (∃ n, i = .round n) ∨ i = .hash ∨ i = .init) ∧
    (t.h ≠ s.h → i = .final ∨ i = .hash ∨ i = .init) ∧
    t.pend = s.pend ∧ t.busy = s.busy ∧ t.rstN = s.rstN ∧ t.moves = s.moves ∧ t.replies = s.replies ∧ t.draws = s.draws

/-- R45: SCNT and RCNT only increase, until INIT or reset clears them. -/
def Obligations.CountersOnlyIncrease : Prop :=
  ∀ s t : State, PhaseInv s → step s = .next t →
    (s.scnt.toNat ≤ t.scnt.toNat ∧ s.rcnt.toNat ≤ t.rcnt.toNat) ∨
    (t.scnt = 0#7 ∧ t.rcnt = 0#7 ∧ (s.pend = 0x01000000#32 ∧ s.busy = true ∨ t.rstN = false))

/-! The bus -/

/-- R82, R83: the register map, address by address, for both values of HEX_UPPER. -/
def Obligations.RegisterMapReads : Prop :=
  ∀ (upper : Bool) (s : State),
    readReg upper s (regOf 0x000#12) = 0#32 ∧
    readReg upper s (regOf 0x008#12) = s.msglen.setWidth 32 ∧
    readReg upper s (regOf 0x00C#12) = s.errcmd ∧
    (∀ i : Fin 8, readReg upper s (regOf (BitVec.ofNat 12 (0x020 + 4 * i.val))) = s.hAt i.val) ∧
    (∀ i : Fin 8, readReg upper s (regOf (BitVec.ofNat 12 (0x040 + 4 * i.val))) = s.wv.at i) ∧
    (∀ i : Fin 8, readReg upper s (regOf (BitVec.ofNat 12 (0x060 + 4 * i.val))) = ivAt i.val) ∧
    (∀ n : Fin 16, readReg upper s (regOf (BitVec.ofNat 12 (0x080 + 4 * n.val))) =
      s.blkAt (4 * n.val) ++ s.blkAt (4 * n.val + 1) ++ s.blkAt (4 * n.val + 2) ++ s.blkAt (4 * n.val + 3)) ∧
    (∀ n : Fin 16, readReg upper s (regOf (BitVec.ofNat 12 (0x0C0 + 4 * n.val))) = hexReg upper s n.val) ∧
    (∀ i : Fin 64, readReg upper s (regOf (BitVec.ofNat 12 (0x100 + 4 * i.val))) = s.wAt i.val) ∧
    (∀ i : Fin 64, readReg upper s (regOf (BitVec.ofNat 12 (0x200 + 4 * i.val))) = kAt i.val)

/-- R82: the fields of STATUS (with BUSY = 0 exact) and of COUNT, and their unused bits. -/
def Obligations.StatusAndCountFields : Prop :=
  ∀ (upper : Bool) (s : State),
    (readReg upper s (regOf 0x004#12)).extractLsb' 0 3 = s.phase.code ∧
    (readReg upper s (regOf 0x004#12)).extractLsb' 3 1 = BitVec.ofBool s.busy ∧
    (readReg upper s (regOf 0x004#12)).extractLsb' 4 4 = s.err.code ∧
    (readReg upper s (regOf 0x004#12)).extractLsb' 8 24 = 0#24 ∧
    (readReg upper s (regOf 0x010#12)).extractLsb' 0 7 = s.scnt ∧
    (readReg upper s (regOf 0x010#12)).extractLsb' 7 1 = 0#1 ∧
    (readReg upper s (regOf 0x010#12)).extractLsb' 8 7 = s.rcnt ∧
    (readReg upper s (regOf 0x010#12)).extractLsb' 15 17 = 0#17

/-- R85: the reserved addresses 0x014..0x01C and 0x300..0xFFC (and the bytes of their words) read as 0 and ignore
writes. -/
def Obligations.ReservedAddressesReadZero : Prop :=
  ∀ (upper : Bool) (s : State) (addr : Addr) (v : Word),
    (0x014 ≤ addr.toNat ∧ addr.toNat ≤ 0x01F) ∨ 0x300 ≤ addr.toNat →
    readReg upper s (regOf addr) = 0#32 ∧ hostWrite addr v s = s

/-- R83, R86: a read with BUSY = 0 returns the register and has no side effect on any element of the state; the host
keeps the value. -/
def Obligations.ReadReturnsRegisterAndChangesNothing : Prop :=
  ∀ (s : State) (addr : Addr) (rest : List Move), s.rstN = true → s.busy = false →
    s.moves = .read addr :: rest → misaligned addr = false →
    step s = .next { s with
      moves := rest
      replies := s.replies ++ [⟨addr, readReg Config.hexUpper s (regOf addr)⟩] }

/-- R354: while BUSY = 1 an access other than a STATUS read waits: the step is the engine's completion, the access is
neither performed nor dropped, and no reply is given. -/
def Obligations.BusyStallsTheHost : Prop :=
  ∀ (s t : State) (mv : Move) (rest : List Move), s.rstN = true → s.busy = true → s.moves = mv :: rest →
    (∃ addr v, mv = .write addr v) ∨ (∃ addr, mv = .read addr ∧ regOf addr ≠ .status) →
    step s = .next t →
    complete s = .next t ∧ t.moves = s.moves ∧ t.replies = s.replies ∧ t.busy = false

/-- R355, I8: a STATUS read while BUSY = 1 returns BUSY = 1 and bits [31:8] = 0, with PHASE and ERR free draws, a
fresh one for each read (the form of the draws is DESIGN CHOICE, log entry 4); it does not wait and changes no element
of R30. -/
def Obligations.StatusReadWhileBusy : Prop :=
  ∀ (s : State) (rest : List Move), s.rstN = true → s.busy = true → s.moves = .read 0x004#12 :: rest →
    ∃ v : Word, step s = .next { s with
        moves := rest, replies := s.replies ++ [⟨0x004#12, v⟩], draws := s.draws + 1 } ∧
      v.extractLsb' 3 1 = 1#1 ∧ v.extractLsb' 8 24 = 0#24 ∧
      v.extractLsb' 0 3 = Config.freePhase s.draws ∧ v.extractLsb' 4 4 = Config.freeErr s.draws

/-- R81: an access with addr[1:0] != 0 is refused by name, in reset too. -/
def Obligations.MisalignedAccessIsRefused : Prop :=
  ∀ (s : State) (addr : Addr) (v : Word) (rest : List Move), addr.toNat % 4 ≠ 0 →
    s.moves = .read addr :: rest ∨ s.moves = .write addr v :: rest →
    step s = .refused (.misalignedAccess addr)

/-! The digest's text -/

/-- R272: the codes of the hex digits. -/
def Obligations.HexDigitCodes : Prop :=
  ∀ v : BitVec 4,
    (v.toNat ≤ 9 → ∀ upper, (hexDigit upper v).toNat = 0x30 + v.toNat) ∧
    (10 ≤ v.toNat → (hexDigit false v).toNat = 0x61 + (v.toNat - 10) ∧ (hexDigit true v).toNat = 0x41 + (v.toNat - 10))

/-- R273, R274: in DONE, byte k of HEXn (k = 0 most significant) is the digit of nibble 4n + k of the digest, most
significant first: nibble j is bits [31 - 4(j mod 8) : 28 - 4(j mod 8)] of H[j / 8]. Otherwise HEXn is 0. -/
def Obligations.HexRegistersSpellTheDigest : Prop :=
  ∀ (upper : Bool) (s : State) (n : Fin 16),
    (s.phase = .done → ∀ k : Fin 4,
      (hexReg upper s n.val).extractLsb' (24 - 8 * k.val) 8 =
        hexDigit upper
          ((s.hAt ((4 * n.val + k.val) / 8)).extractLsb' (28 - 4 * ((4 * n.val + k.val) % 8)) 4)) ∧
    (s.phase ≠ .done → hexReg upper s n.val = 0x00000000#32)

/-- R318, R356: a HEXn that does not read 0 shows that PHASE = DONE, and in DONE none reads 0: no digit is the byte 0.
-/
def Obligations.HexIsGatedToDone : Prop :=
  ∀ (upper : Bool) (s : State) (n : Fin 16), hexReg upper s n.val ≠ 0#32 ↔ s.phase = .done

/-! Reset -/

/-- R350, R351: while rst_n = 0 every element holds its reset value, whatever the host does; an in-flight command is
abandoned; reads return 0. -/
def Obligations.ResetHoldsTheEngine : Prop :=
  ∀ s t : State, (s.rstN = false ∨ ∃ rest, s.moves = .rstN false :: rest) → step s = .next t →
    resetEngine t = t ∧ t.busy = false ∧ t.phase = .idle ∧
    (s.rstN = false → ∀ addr rest, s.moves = .read addr :: rest → t.replies = s.replies ++ [⟨addr, 0#32⟩])

/-- R352, R49: the state after reset: STATUS reads 0 and every data element is 0, H included. -/
def Obligations.StateAfterReset : Prop :=
  ∀ upper : Bool,
    readReg upper State.reset (regOf 0x004#12) = 0#32 ∧
    State.reset.phase = .idle ∧ State.reset.busy = false ∧ State.reset.err = .none ∧
    State.reset.errcmd = 0#32 ∧ State.reset.pend = 0#32 ∧ State.reset.msglen = 0#6 ∧
    State.reset.scnt = 0#7 ∧ State.reset.rcnt = 0#7 ∧
    (∀ i : Fin 8, State.reset.hAt i.val = 0#32 ∧ State.reset.wv.at i = 0#32) ∧
    (∀ i : Fin 64, State.reset.wAt i.val = 0#32 ∧ State.reset.blkAt i.val = 0#8)

/-! Constants and primitives -/

/-- R170, for the amounts the engine's tables use: `primes(amount)` is the first `amount` primes. -/
def Obligations.PrimesAreTheFirstPrimes : Prop :=
  ∀ amount, amount ≤ 64 → primes amount = (List.range amount).map (Nat.nth Nat.Prime)

/-- R171, R175: `IV[i] = floor(frac(sqrt(p_i)) * 2^32)`, over the real numbers. -/
def Obligations.IvRomHoldsSquareRoots : Prop :=
  ∀ i, i < 8 →
    (ivAt i).toNat = ⌊Int.fract (Real.sqrt (Nat.nth Nat.Prime i : ℝ)) * 2 ^ 32⌋₊

/-- R172, R176: `K[i] = floor(frac(cbrt(p_i)) * 2^32)`, over the real numbers. -/
def Obligations.KRomHoldsCubeRoots : Prop :=
  ∀ i, i < 64 →
    (kAt i).toNat = ⌊Int.fract ((Nat.nth Nat.Prime i : ℝ) ^ (1 / 3 : ℝ)) * 2 ^ 32⌋₊

/-- R154: the laws of rotate right. -/
def Obligations.RotateRightLaws : Prop :=
  (∀ x : Word, rotr x 0 = x) ∧ (∀ (x : Word) (n : Nat), 1 ≤ n → n ≤ 31 → rotr (rotr x n) (32 - n) = x)

/-- R145 to R152, bit by bit: rotate, logical shift, the four mixing functions with their amounts written out (S0: 2, 13,
22; S1: 6, 11, 25; s0: 7, 18 and shift 3; s1: 17, 19 and shift 10), choose and majority. -/
def Obligations.PrimitivesBitByBit : Prop :=
  ∀ (x y z : Word) (n : Nat) (i : Fin 32), n ≤ 31 →
    (rotr x n).getLsbD i.val = x.getLsbD ((i.val + n) % 32) ∧
    (shr x n).toNat = x.toNat / 2 ^ n ∧
    (upperS0 x).getLsbD i.val =
      (x.getLsbD ((i.val + 2) % 32) ^^ x.getLsbD ((i.val + 13) % 32) ^^ x.getLsbD ((i.val + 22) % 32)) ∧
    (upperS1 x).getLsbD i.val =
      (x.getLsbD ((i.val + 6) % 32) ^^ x.getLsbD ((i.val + 11) % 32) ^^ x.getLsbD ((i.val + 25) % 32)) ∧
    (lowerS0 x).getLsbD i.val =
      (x.getLsbD ((i.val + 7) % 32) ^^ x.getLsbD ((i.val + 18) % 32) ^^
        (decide (i.val + 3 < 32) && x.getLsbD (i.val + 3))) ∧
    (lowerS1 x).getLsbD i.val =
      (x.getLsbD ((i.val + 17) % 32) ^^ x.getLsbD ((i.val + 19) % 32) ^^
        (decide (i.val + 10 < 32) && x.getLsbD (i.val + 10))) ∧
    (ch x y z).getLsbD i.val = (if x.getLsbD i.val then y.getLsbD i.val else z.getLsbD i.val) ∧
    (maj x y z).getLsbD i.val =
      decide (2 ≤ (x.getLsbD i.val).toNat + (y.getLsbD i.val).toNat + (z.getLsbD i.val).toNat)

/-- R192, C2: the padding function for a message of any length: a positive multiple of 64 bytes that begins with the
message and 0x80, and whose last 64 bits are 8 times the byte length, big-endian. -/
def Obligations.PaddingOfAnyLength : Prop :=
  ∀ m : List Byte,
    (pad m).length % 64 = 0 ∧ m.length + 9 ≤ (pad m).length ∧ (pad m).length < m.length + 73 ∧
    (m ++ [0x80#8]) <+: pad m ∧
    (∀ j, m.length < j → j + 8 < (pad m).length → (pad m).getD j 0xFF#8 = 0x00#8) ∧
    ((pad m).drop ((pad m).length - 8)).foldl (fun acc b => 256 * acc + b.toNat) 0 = 8 * m.length % 2 ^ 64

/-! Invariants and whole-machine rules -/

/-- The launch states of R361, the reset state (R49) among them, meet the phase invariants of R48 and the meaning of
the data. -/
def Obligations.LaunchStatesMeetInvariants : Prop :=
  PhaseInv State.reset ∧ DataInv State.reset ∧
  (∀ s, AfterReset s → DataInv s) ∧ (∀ s, AfterInit s → DataInv s)

/-- R48: every step, of the host, the engine or the reset input, keeps the row of every phase, the error record and
the hold of reset. -/
def Obligations.StepKeepsPhaseInvariants : Prop :=
  ∀ s t : State, PhaseInv s → step s = .next t → PhaseInv t

/-- R37 to R42: every step keeps the meaning of the data: the block is the padded message, W its schedule up to SCNT,
the working state that of RCNT rounds. -/
def Obligations.StepKeepsDataMeaning : Prop :=
  ∀ s t : State, DataInv s → step s = .next t → DataInv t

/-- R356, R298: in DONE, H is the digest of the message the engine holds. -/
def Obligations.DoneHoldsTheDigest : Prop :=
  ∀ s : State, DataInv s → s.phase = .done → s.h = sha256 s.message

/-- R292 (`exec` is total) with the phase invariants (R48), R220 (whose precondition keeps the model's one fault, DESIGN
CHOICE, log entry 7, out of these states), R325 (the idle step, DEDUCED, log entry 2) and R81 (the only refusal): a step
from these states answers a next state. The order of the moves is DESIGN CHOICE, log entry 1. -/
def Obligations.AlignedStepAnswersNext : Prop :=
  ∀ s : State, PhaseInv s → Aligned s → ∃ t, step s = .next t ∧ Aligned t

/-- R50, R298: the computation after `INIT` and any words is the same from any two states: nothing of the past reaches
it. -/
def Obligations.InitForgetsThePast : Prop :=
  ∀ (cs : List Word) (s s' t t' : State),
    execWords (0x01000000#32 :: cs) s = .next t → execWords (0x01000000#32 :: cs) s' = .next t' →
    SameComputation t t'

/-- R325, R44: with BUSY = 0 and no move, the engine does nothing. -/
def Obligations.IdleEngineKeepsItsState : Prop :=
  ∀ s : State, s.rstN = true → s.busy = false → s.moves = [] → step s = .next s

/-- R119: `DIGEST` of a text of characters with code points up to 255 assembles to INIT, one PUSH per character, HASH.
-/
def Obligations.DigestPseudoAssembles : Prop :=
  ∀ cs : List Char, (∀ c ∈ cs, c.toNat ≤ 255) →
    assembleTokens [.word ['D', 'I', 'G', 'E', 'S', 'T'], .text cs] =
      .ok (.wr 0#12 0x01000000#32 ::
        (cs.map fun c => HostOp.wr 0#12 (0x02#8 ++ 0#16 ++ BitVec.ofNat 8 c.toNat)) ++ [.wr 0#12 0x07000000#32])
end

