-- ==== Sys2Proof/Laws/State.lean ====
section
/-! SUPPORT. One lemma for each field and each operation that updates the state, true by rfl, so that no later proof
unfolds a record update; and, for the updates under an if, the fields they never touch. -/

namespace Sys2Proof.Machine

variable (s : State)

@[simp] theorem raiseError_phase (code : ErrCode) (c : Word) : (raiseError code c s).phase = .error := rfl
@[simp] theorem raiseError_err (code : ErrCode) (c : Word) : (raiseError code c s).err = code := rfl
@[simp] theorem raiseError_errcmd (code : ErrCode) (c : Word) : (raiseError code c s).errcmd = c := rfl
@[simp] theorem raiseError_busy (code : ErrCode) (c : Word) : (raiseError code c s).busy = s.busy := rfl
@[simp] theorem raiseError_pend (code : ErrCode) (c : Word) : (raiseError code c s).pend = s.pend := rfl
@[simp] theorem raiseError_msglen (code : ErrCode) (c : Word) : (raiseError code c s).msglen = s.msglen := rfl
@[simp] theorem raiseError_blk (code : ErrCode) (c : Word) : (raiseError code c s).blk = s.blk := rfl
@[simp] theorem raiseError_w (code : ErrCode) (c : Word) : (raiseError code c s).w = s.w := rfl
@[simp] theorem raiseError_scnt (code : ErrCode) (c : Word) : (raiseError code c s).scnt = s.scnt := rfl
@[simp] theorem raiseError_wv (code : ErrCode) (c : Word) : (raiseError code c s).wv = s.wv := rfl
@[simp] theorem raiseError_rcnt (code : ErrCode) (c : Word) : (raiseError code c s).rcnt = s.rcnt := rfl
@[simp] theorem raiseError_h (code : ErrCode) (c : Word) : (raiseError code c s).h = s.h := rfl
@[simp] theorem raiseError_rstN (code : ErrCode) (c : Word) : (raiseError code c s).rstN = s.rstN := rfl
@[simp] theorem raiseError_moves (code : ErrCode) (c : Word) : (raiseError code c s).moves = s.moves := rfl
@[simp] theorem raiseError_replies (code : ErrCode) (c : Word) : (raiseError code c s).replies = s.replies := rfl
@[simp] theorem raiseError_draws (code : ErrCode) (c : Word) : (raiseError code c s).draws = s.draws := rfl

@[simp] theorem issueCommand_phase (v : Word) : (issueCommand v s).phase = s.phase := rfl
@[simp] theorem issueCommand_err (v : Word) : (issueCommand v s).err = s.err := rfl
@[simp] theorem issueCommand_errcmd (v : Word) : (issueCommand v s).errcmd = s.errcmd := rfl
@[simp] theorem issueCommand_busy (v : Word) : (issueCommand v s).busy = true := rfl
@[simp] theorem issueCommand_pend (v : Word) : (issueCommand v s).pend = v := rfl
@[simp] theorem issueCommand_msglen (v : Word) : (issueCommand v s).msglen = s.msglen := rfl
@[simp] theorem issueCommand_blk (v : Word) : (issueCommand v s).blk = s.blk := rfl
@[simp] theorem issueCommand_w (v : Word) : (issueCommand v s).w = s.w := rfl
@[simp] theorem issueCommand_scnt (v : Word) : (issueCommand v s).scnt = s.scnt := rfl
@[simp] theorem issueCommand_wv (v : Word) : (issueCommand v s).wv = s.wv := rfl
@[simp] theorem issueCommand_rcnt (v : Word) : (issueCommand v s).rcnt = s.rcnt := rfl
@[simp] theorem issueCommand_h (v : Word) : (issueCommand v s).h = s.h := rfl
@[simp] theorem issueCommand_rstN (v : Word) : (issueCommand v s).rstN = s.rstN := rfl
@[simp] theorem issueCommand_moves (v : Word) : (issueCommand v s).moves = s.moves := rfl
@[simp] theorem issueCommand_replies (v : Word) : (issueCommand v s).replies = s.replies := rfl
@[simp] theorem issueCommand_draws (v : Word) : (issueCommand v s).draws = s.draws := rfl

@[simp] theorem resetEngine_phase : (resetEngine s).phase = State.reset.phase := rfl
@[simp] theorem resetEngine_err : (resetEngine s).err = State.reset.err := rfl
@[simp] theorem resetEngine_errcmd : (resetEngine s).errcmd = State.reset.errcmd := rfl
@[simp] theorem resetEngine_busy : (resetEngine s).busy = State.reset.busy := rfl
@[simp] theorem resetEngine_pend : (resetEngine s).pend = State.reset.pend := rfl
@[simp] theorem resetEngine_msglen : (resetEngine s).msglen = State.reset.msglen := rfl
@[simp] theorem resetEngine_blk : (resetEngine s).blk = State.reset.blk := rfl
@[simp] theorem resetEngine_w : (resetEngine s).w = State.reset.w := rfl
@[simp] theorem resetEngine_scnt : (resetEngine s).scnt = State.reset.scnt := rfl
@[simp] theorem resetEngine_wv : (resetEngine s).wv = State.reset.wv := rfl
@[simp] theorem resetEngine_rcnt : (resetEngine s).rcnt = State.reset.rcnt := rfl
@[simp] theorem resetEngine_h : (resetEngine s).h = State.reset.h := rfl
@[simp] theorem resetEngine_rstN : (resetEngine s).rstN = s.rstN := rfl
@[simp] theorem resetEngine_moves : (resetEngine s).moves = s.moves := rfl
@[simp] theorem resetEngine_replies : (resetEngine s).replies = s.replies := rfl
@[simp] theorem resetEngine_draws : (resetEngine s).draws = s.draws := rfl

@[simp] theorem expandStep_phase : (expandStep s).phase = s.phase := rfl
@[simp] theorem expandStep_err : (expandStep s).err = s.err := rfl
@[simp] theorem expandStep_errcmd : (expandStep s).errcmd = s.errcmd := rfl
@[simp] theorem expandStep_busy : (expandStep s).busy = s.busy := rfl
@[simp] theorem expandStep_pend : (expandStep s).pend = s.pend := rfl
@[simp] theorem expandStep_msglen : (expandStep s).msglen = s.msglen := rfl
@[simp] theorem expandStep_blk : (expandStep s).blk = s.blk := rfl
@[simp] theorem expandStep_w : (expandStep s).w = s.w.setIfInBounds s.scnt.toNat
      (scheduleWord (s.wAt (s.scnt.toNat - 16)) (s.wAt (s.scnt.toNat - 15)) (s.wAt (s.scnt.toNat - 7))
        (s.wAt (s.scnt.toNat - 2))) := rfl
@[simp] theorem expandStep_scnt : (expandStep s).scnt = s.scnt + 1#7 := rfl
@[simp] theorem expandStep_wv : (expandStep s).wv = s.wv := rfl
@[simp] theorem expandStep_rcnt : (expandStep s).rcnt = s.rcnt := rfl
@[simp] theorem expandStep_h : (expandStep s).h = s.h := rfl
@[simp] theorem expandStep_rstN : (expandStep s).rstN = s.rstN := rfl
@[simp] theorem expandStep_moves : (expandStep s).moves = s.moves := rfl
@[simp] theorem expandStep_replies : (expandStep s).replies = s.replies := rfl
@[simp] theorem expandStep_draws : (expandStep s).draws = s.draws := rfl

@[simp] theorem loadWorking_phase : (loadWorking s).phase = .compress := rfl
@[simp] theorem loadWorking_err : (loadWorking s).err = s.err := rfl
@[simp] theorem loadWorking_errcmd : (loadWorking s).errcmd = s.errcmd := rfl
@[simp] theorem loadWorking_busy : (loadWorking s).busy = s.busy := rfl
@[simp] theorem loadWorking_pend : (loadWorking s).pend = s.pend := rfl
@[simp] theorem loadWorking_msglen : (loadWorking s).msglen = s.msglen := rfl
@[simp] theorem loadWorking_blk : (loadWorking s).blk = s.blk := rfl
@[simp] theorem loadWorking_w : (loadWorking s).w = s.w := rfl
@[simp] theorem loadWorking_scnt : (loadWorking s).scnt = s.scnt := rfl
@[simp] theorem loadWorking_wv : (loadWorking s).wv = workOf s.h := rfl
@[simp] theorem loadWorking_rcnt : (loadWorking s).rcnt = s.rcnt := rfl
@[simp] theorem loadWorking_h : (loadWorking s).h = s.h := rfl
@[simp] theorem loadWorking_rstN : (loadWorking s).rstN = s.rstN := rfl
@[simp] theorem loadWorking_moves : (loadWorking s).moves = s.moves := rfl
@[simp] theorem loadWorking_replies : (loadWorking s).replies = s.replies := rfl
@[simp] theorem loadWorking_draws : (loadWorking s).draws = s.draws := rfl

@[simp] theorem roundStep_phase : (roundStep s).phase = s.phase := rfl
@[simp] theorem roundStep_err : (roundStep s).err = s.err := rfl
@[simp] theorem roundStep_errcmd : (roundStep s).errcmd = s.errcmd := rfl
@[simp] theorem roundStep_busy : (roundStep s).busy = s.busy := rfl
@[simp] theorem roundStep_pend : (roundStep s).pend = s.pend := rfl
@[simp] theorem roundStep_msglen : (roundStep s).msglen = s.msglen := rfl
@[simp] theorem roundStep_blk : (roundStep s).blk = s.blk := rfl
@[simp] theorem roundStep_w : (roundStep s).w = s.w := rfl
@[simp] theorem roundStep_scnt : (roundStep s).scnt = s.scnt := rfl
@[simp] theorem roundStep_wv : (roundStep s).wv = nextWork s.wv (kAt s.rcnt.toNat) (s.wAt s.rcnt.toNat) := rfl
@[simp] theorem roundStep_rcnt : (roundStep s).rcnt = s.rcnt + 1#7 := rfl
@[simp] theorem roundStep_h : (roundStep s).h = s.h := rfl
@[simp] theorem roundStep_rstN : (roundStep s).rstN = s.rstN := rfl
@[simp] theorem roundStep_moves : (roundStep s).moves = s.moves := rfl
@[simp] theorem roundStep_replies : (roundStep s).replies = s.replies := rfl
@[simp] theorem roundStep_draws : (roundStep s).draws = s.draws := rfl

@[simp] theorem initState_phase : (initState s).phase = .load := rfl
@[simp] theorem initState_err : (initState s).err = .none := rfl
@[simp] theorem initState_errcmd : (initState s).errcmd = 0#32 := rfl
@[simp] theorem initState_busy : (initState s).busy = s.busy := rfl
@[simp] theorem initState_pend : (initState s).pend = s.pend := rfl
@[simp] theorem initState_msglen : (initState s).msglen = 0#6 := rfl
@[simp] theorem initState_blk : (initState s).blk = Vector.replicate 64 0#8 := rfl
@[simp] theorem initState_w : (initState s).w = Vector.replicate 64 0#32 := rfl
@[simp] theorem initState_scnt : (initState s).scnt = 0#7 := rfl
@[simp] theorem initState_wv : (initState s).wv = WorkVars.zero := rfl
@[simp] theorem initState_rcnt : (initState s).rcnt = 0#7 := rfl
@[simp] theorem initState_h : (initState s).h = ivRom := rfl
@[simp] theorem initState_rstN : (initState s).rstN = s.rstN := rfl
@[simp] theorem initState_moves : (initState s).moves = s.moves := rfl
@[simp] theorem initState_replies : (initState s).replies = s.replies := rfl
@[simp] theorem initState_draws : (initState s).draws = s.draws := rfl

@[simp] theorem hostRead_phase (addr : Addr) : (hostRead addr s).phase = s.phase := rfl
@[simp] theorem hostRead_err (addr : Addr) : (hostRead addr s).err = s.err := rfl
@[simp] theorem hostRead_errcmd (addr : Addr) : (hostRead addr s).errcmd = s.errcmd := rfl
@[simp] theorem hostRead_busy (addr : Addr) : (hostRead addr s).busy = s.busy := rfl
@[simp] theorem hostRead_pend (addr : Addr) : (hostRead addr s).pend = s.pend := rfl
@[simp] theorem hostRead_msglen (addr : Addr) : (hostRead addr s).msglen = s.msglen := rfl
@[simp] theorem hostRead_blk (addr : Addr) : (hostRead addr s).blk = s.blk := rfl
@[simp] theorem hostRead_w (addr : Addr) : (hostRead addr s).w = s.w := rfl
@[simp] theorem hostRead_scnt (addr : Addr) : (hostRead addr s).scnt = s.scnt := rfl
@[simp] theorem hostRead_wv (addr : Addr) : (hostRead addr s).wv = s.wv := rfl
@[simp] theorem hostRead_rcnt (addr : Addr) : (hostRead addr s).rcnt = s.rcnt := rfl
@[simp] theorem hostRead_h (addr : Addr) : (hostRead addr s).h = s.h := rfl
@[simp] theorem hostRead_rstN (addr : Addr) : (hostRead addr s).rstN = s.rstN := rfl
@[simp] theorem hostRead_moves (addr : Addr) : (hostRead addr s).moves = s.moves := rfl
@[simp] theorem hostRead_replies (addr : Addr) : (hostRead addr s).replies = s.replies ++ [⟨addr, memRead s addr⟩] := rfl
@[simp] theorem hostRead_draws (addr : Addr) : (hostRead addr s).draws = if s.busy then s.draws + 1 else s.draws := rfl

@[simp] theorem placeCommand_phase (c : Word) : (placeCommand c s).phase = s.phase := rfl
@[simp] theorem placeCommand_err (c : Word) : (placeCommand c s).err = s.err := rfl
@[simp] theorem placeCommand_errcmd (c : Word) : (placeCommand c s).errcmd = s.errcmd := rfl
@[simp] theorem placeCommand_busy (c : Word) : (placeCommand c s).busy = true := rfl
@[simp] theorem placeCommand_pend (c : Word) : (placeCommand c s).pend = c := rfl
@[simp] theorem placeCommand_msglen (c : Word) : (placeCommand c s).msglen = s.msglen := rfl
@[simp] theorem placeCommand_blk (c : Word) : (placeCommand c s).blk = s.blk := rfl
@[simp] theorem placeCommand_w (c : Word) : (placeCommand c s).w = s.w := rfl
@[simp] theorem placeCommand_scnt (c : Word) : (placeCommand c s).scnt = s.scnt := rfl
@[simp] theorem placeCommand_wv (c : Word) : (placeCommand c s).wv = s.wv := rfl
@[simp] theorem placeCommand_rcnt (c : Word) : (placeCommand c s).rcnt = s.rcnt := rfl
@[simp] theorem placeCommand_h (c : Word) : (placeCommand c s).h = s.h := rfl
@[simp] theorem placeCommand_rstN (c : Word) : (placeCommand c s).rstN = true := rfl
@[simp] theorem placeCommand_moves (c : Word) : (placeCommand c s).moves = .engine :: s.moves := rfl
@[simp] theorem placeCommand_replies (c : Word) : (placeCommand c s).replies = s.replies := rfl
@[simp] theorem placeCommand_draws (c : Word) : (placeCommand c s).draws = s.draws := rfl

@[simp] theorem closeSchedule_err : (closeSchedule s).err = s.err := by
  unfold closeSchedule; split <;> rfl
@[simp] theorem closeSchedule_errcmd : (closeSchedule s).errcmd = s.errcmd := by
  unfold closeSchedule; split <;> rfl
@[simp] theorem closeSchedule_busy : (closeSchedule s).busy = s.busy := by
  unfold closeSchedule; split <;> rfl
@[simp] theorem closeSchedule_pend : (closeSchedule s).pend = s.pend := by
  unfold closeSchedule; split <;> rfl
@[simp] theorem closeSchedule_msglen : (closeSchedule s).msglen = s.msglen := by
  unfold closeSchedule; split <;> rfl
@[simp] theorem closeSchedule_blk : (closeSchedule s).blk = s.blk := by
  unfold closeSchedule; split <;> rfl
@[simp] theorem closeSchedule_w : (closeSchedule s).w = s.w := by
  unfold closeSchedule; split <;> rfl
@[simp] theorem closeSchedule_scnt : (closeSchedule s).scnt = s.scnt := by
  unfold closeSchedule; split <;> rfl
@[simp] theorem closeSchedule_wv : (closeSchedule s).wv = s.wv := by
  unfold closeSchedule; split <;> rfl
@[simp] theorem closeSchedule_rcnt : (closeSchedule s).rcnt = s.rcnt := by
  unfold closeSchedule; split <;> rfl
@[simp] theorem closeSchedule_h : (closeSchedule s).h = s.h := by
  unfold closeSchedule; split <;> rfl
@[simp] theorem closeSchedule_rstN : (closeSchedule s).rstN = s.rstN := by
  unfold closeSchedule; split <;> rfl
@[simp] theorem closeSchedule_moves : (closeSchedule s).moves = s.moves := by
  unfold closeSchedule; split <;> rfl
@[simp] theorem closeSchedule_replies : (closeSchedule s).replies = s.replies := by
  unfold closeSchedule; split <;> rfl
@[simp] theorem closeSchedule_draws : (closeSchedule s).draws = s.draws := by
  unfold closeSchedule; split <;> rfl

@[simp] theorem closeRounds_err : (closeRounds s).err = s.err := by
  unfold closeRounds; split <;> rfl
@[simp] theorem closeRounds_errcmd : (closeRounds s).errcmd = s.errcmd := by
  unfold closeRounds; split <;> rfl
@[simp] theorem closeRounds_busy : (closeRounds s).busy = s.busy := by
  unfold closeRounds; split <;> rfl
@[simp] theorem closeRounds_pend : (closeRounds s).pend = s.pend := by
  unfold closeRounds; split <;> rfl
@[simp] theorem closeRounds_msglen : (closeRounds s).msglen = s.msglen := by
  unfold closeRounds; split <;> rfl
@[simp] theorem closeRounds_blk : (closeRounds s).blk = s.blk := by
  unfold closeRounds; split <;> rfl
@[simp] theorem closeRounds_w : (closeRounds s).w = s.w := by
  unfold closeRounds; split <;> rfl
@[simp] theorem closeRounds_scnt : (closeRounds s).scnt = s.scnt := by
  unfold closeRounds; split <;> rfl
@[simp] theorem closeRounds_wv : (closeRounds s).wv = s.wv := by
  unfold closeRounds; split <;> rfl
@[simp] theorem closeRounds_rcnt : (closeRounds s).rcnt = s.rcnt := by
  unfold closeRounds; split <;> rfl
@[simp] theorem closeRounds_h : (closeRounds s).h = s.h := by
  unfold closeRounds; split <;> rfl
@[simp] theorem closeRounds_rstN : (closeRounds s).rstN = s.rstN := by
  unfold closeRounds; split <;> rfl
@[simp] theorem closeRounds_moves : (closeRounds s).moves = s.moves := by
  unfold closeRounds; split <;> rfl
@[simp] theorem closeRounds_replies : (closeRounds s).replies = s.replies := by
  unfold closeRounds; split <;> rfl
@[simp] theorem closeRounds_draws : (closeRounds s).draws = s.draws := by
  unfold closeRounds; split <;> rfl

@[simp] theorem openWork_err : (openWork s).err = s.err := by
  unfold openWork; split <;> rfl
@[simp] theorem openWork_errcmd : (openWork s).errcmd = s.errcmd := by
  unfold openWork; split <;> rfl
@[simp] theorem openWork_busy : (openWork s).busy = s.busy := by
  unfold openWork; split <;> rfl
@[simp] theorem openWork_pend : (openWork s).pend = s.pend := by
  unfold openWork; split <;> rfl
@[simp] theorem openWork_msglen : (openWork s).msglen = s.msglen := by
  unfold openWork; split <;> rfl
@[simp] theorem openWork_blk : (openWork s).blk = s.blk := by
  unfold openWork; split <;> rfl
@[simp] theorem openWork_w : (openWork s).w = s.w := by
  unfold openWork; split <;> rfl
@[simp] theorem openWork_scnt : (openWork s).scnt = s.scnt := by
  unfold openWork; split <;> rfl
@[simp] theorem openWork_rcnt : (openWork s).rcnt = s.rcnt := by
  unfold openWork; split <;> rfl
@[simp] theorem openWork_h : (openWork s).h = s.h := by
  unfold openWork; split <;> rfl
@[simp] theorem openWork_rstN : (openWork s).rstN = s.rstN := by
  unfold openWork; split <;> rfl
@[simp] theorem openWork_moves : (openWork s).moves = s.moves := by
  unfold openWork; split <;> rfl
@[simp] theorem openWork_replies : (openWork s).replies = s.replies := by
  unfold openWork; split <;> rfl
@[simp] theorem openWork_draws : (openWork s).draws = s.draws := by
  unfold openWork; split <;> rfl

@[simp] theorem hostWrite_phase (addr : Addr) (v : Word) : (hostWrite addr v s).phase = s.phase := by
  unfold hostWrite; split <;> rfl
@[simp] theorem hostWrite_err (addr : Addr) (v : Word) : (hostWrite addr v s).err = s.err := by
  unfold hostWrite; split <;> rfl
@[simp] theorem hostWrite_errcmd (addr : Addr) (v : Word) : (hostWrite addr v s).errcmd = s.errcmd := by
  unfold hostWrite; split <;> rfl
@[simp] theorem hostWrite_msglen (addr : Addr) (v : Word) : (hostWrite addr v s).msglen = s.msglen := by
  unfold hostWrite; split <;> rfl
@[simp] theorem hostWrite_blk (addr : Addr) (v : Word) : (hostWrite addr v s).blk = s.blk := by
  unfold hostWrite; split <;> rfl
@[simp] theorem hostWrite_w (addr : Addr) (v : Word) : (hostWrite addr v s).w = s.w := by
  unfold hostWrite; split <;> rfl
@[simp] theorem hostWrite_scnt (addr : Addr) (v : Word) : (hostWrite addr v s).scnt = s.scnt := by
  unfold hostWrite; split <;> rfl
@[simp] theorem hostWrite_wv (addr : Addr) (v : Word) : (hostWrite addr v s).wv = s.wv := by
  unfold hostWrite; split <;> rfl
@[simp] theorem hostWrite_rcnt (addr : Addr) (v : Word) : (hostWrite addr v s).rcnt = s.rcnt := by
  unfold hostWrite; split <;> rfl
@[simp] theorem hostWrite_h (addr : Addr) (v : Word) : (hostWrite addr v s).h = s.h := by
  unfold hostWrite; split <;> rfl
@[simp] theorem hostWrite_rstN (addr : Addr) (v : Word) : (hostWrite addr v s).rstN = s.rstN := by
  unfold hostWrite; split <;> rfl
@[simp] theorem hostWrite_moves (addr : Addr) (v : Word) : (hostWrite addr v s).moves = s.moves := by
  unfold hostWrite; split <;> rfl
@[simp] theorem hostWrite_replies (addr : Addr) (v : Word) : (hostWrite addr v s).replies = s.replies := by
  unfold hostWrite; split <;> rfl
@[simp] theorem hostWrite_draws (addr : Addr) (v : Word) : (hostWrite addr v s).draws = s.draws := by
  unfold hostWrite; split <;> rfl

end Sys2Proof.Machine
end

