-- ==== Sys2Proof/Laws/Ops.lean ====
section
/-! SUPPORT. What the shared operations can do: reads after writes of the arrays, the frame of `exec` around a command
(R292, R312, R315), and the completion of a command word. -/

namespace Sys2Proof.Machine

/-- A read after a write of an array. -/
theorem getD_setIfInBounds {α : Type} {n : Nat} (v : Vector α n) (i j : Nat) (x d : α) :
    (v.setIfInBounds i x).getD j d = if i = j ∧ i < n then x else v.getD j d := by
  by_cases hj : j < n
  · by_cases hij : i = j
    · subst hij; simp [Vector.getD, hj]
    · simp [Vector.getD, hj, hij]
  · have hn : ¬(i = j ∧ i < n) := by omega
    simp [Vector.getD, hj, hn]

/-- A read outside an array gives the default. -/
theorem getD_of_le {α : Type} {n : Nat} (v : Vector α n) (j : Nat) (d : α) (h : n ≤ j) : v.getD j d = d := by
  simp [Vector.getD, Nat.not_lt.mpr h]

/-- A read inside an array. -/
theorem getD_of_lt {α : Type} {n : Nat} (v : Vector α n) (j : Nat) (d : α) (h : j < n) : v.getD j d = v[j] := by
  simp [Vector.getD, h]

/-- Two arrays of the same reads are equal. -/
theorem vector_ext_getD {α : Type} {n : Nat} {v u : Vector α n} (d : α)
    (h : ∀ j, j < n → v.getD j d = u.getD j d) : v = u := by
  ext j hj
  have := h j hj
  rwa [getD_of_lt v j d hj, getD_of_lt u j d hj] at this

/-- A read of the array an index function makes. -/
theorem getD_ofFn {α : Type} {n : Nat} (f : Fin n → α) (j : Nat) (d : α) (h : j < n) :
    (Vector.ofFn f).getD j d = f ⟨j, h⟩ := by
  simp [getD_of_lt _ _ _ h]

section runCommand
variable (c : Word) (body : Body) (s : State)

theorem runCommand_ignored (h : s.phase = .error) : runCommand c body s = .next s := by
  simp [runCommand, h]

theorem runCommand_ok {t : State} (h : s.phase ≠ .error) (hb : body s = .ok t) :
    runCommand c body s = .next t := by
  simp [runCommand, h, hb]

theorem runCommand_error {code : ErrCode} (h : s.phase ≠ .error) (hb : body s = .error (.error code)) :
    runCommand c body s = .next (raiseError code c s) := by
  simp [runCommand, h, hb]

theorem runCommand_fault {reason : Fault} (h : s.phase ≠ .error) (hb : body s = .error (.fault reason)) :
    runCommand c body s = .fault reason := by
  simp [runCommand, h, hb]

/-- All a command can do when it answers a next state. -/
theorem runCommand_next {t : State} (h : runCommand c body s = .next t) :
    (s.phase = .error ∧ t = s) ∨
    (s.phase ≠ .error ∧ body s = .ok t) ∨
    (s.phase ≠ .error ∧ ∃ code, body s = .error (.error code) ∧ t = raiseError code c s) := by
  unfold runCommand at h
  split at h
  · exact .inl ⟨‹_›, by injection h with h; exact h.symm⟩
  · split at h
    · injection h with h; subst h; exact .inr (.inl ⟨‹_›, ‹_›⟩)
    · injection h with h; subst h; exact .inr (.inr ⟨‹_›, _, ‹_›, rfl⟩)
    · cases h

/-- A command is never refused. -/
theorem runCommand_not_refused (r : Refusal) : runCommand c body s ≠ .refused r := by
  unfold runCommand
  split
  · simp
  · split <;> simp

/-- A command faults only where its body does. -/
theorem runCommand_fault_inv {reason : Fault} (h : runCommand c body s = .fault reason) :
    s.phase ≠ .error ∧ body s = .error (.fault reason) := by
  unfold runCommand at h
  split at h
  · cases h
  · split at h
    · cases h
    · cases h
    · injection h with h; subst h; exact ⟨‹_›, ‹_›⟩

end runCommand

theorem exec_init (s : State) : exec .init s = .next (initState s) := rfl

/-- The meaning of each command as one form: INIT aside, `exec` is `runCommand` of the command's word and body. -/
theorem exec_of_ne_init {i : Instr} (h : i ≠ .init) (s : State) :
    exec i s = runCommand (encode i) (bodyOf i) s := by
  cases i <;> first | rfl | exact absurd rfl h

/-- No command is refused. -/
theorem exec_not_refused (i : Instr) (s : State) (r : Refusal) : exec i s ≠ .refused r := by
  by_cases h : i = .init
  · subst h; simp [exec_init]
  · rw [exec_of_ne_init h]; exact runCommand_not_refused _ _ _ _

/-- R292: what the completion of a word can be. -/
theorem execWord_ok {c : Word} {i : Instr} (h : decode c = .ok i) (s : State) : execWord c s = exec i s := by
  simp [execWord, h]

theorem execWord_illegal {c : Word} {why : Illegal} (h : decode c = .error why) (s : State) :
    execWord c s = execIllegal c s := by
  simp [execWord, h]

theorem clearBusy_next {o : Host.Outcome State Fault Refusal} {t : State} (h : clearBusy o = .next t) :
    ∃ u, o = .next u ∧ t = { u with busy := false } := by
  cases o with
  | next u => exact ⟨u, rfl, by injection h with h; exact h.symm⟩
  | fault r => cases h
  | refused r => cases h

end Sys2Proof.Machine
end

