-- ==== Sys2Proof/Laws/Bus.lean ====
section
/-! SUPPORT. Addresses as numbers (R80, R81), and which addresses are CMD's and the reserved ones' (R82, R85). -/

namespace Sys2Proof.Machine

theorem misaligned_eq_false (addr : Addr) : misaligned addr = false ↔ addr.toNat % 4 = 0 := by
  simp only [misaligned, bne_eq_false_iff_eq]
  rw [← BitVec.toNat_inj]
  simp [BitVec.extractLsb'_toNat]

theorem misaligned_eq_true (addr : Addr) : misaligned addr = true ↔ addr.toNat % 4 ≠ 0 := by
  rw [← Bool.not_eq_false, misaligned_eq_false]

/-- R82: only CMD's own address is CMD. -/
theorem regAt_ne_cmd (a : Nat) (h : 4 ≤ a) : regAt a ≠ .cmd := by
  unfold regAt
  split
  · rename_i row hf
    have hp := List.find?_some hf
    have hm := List.mem_of_find?_eq_some hf
    simp only [rowHolds, Bool.and_eq_true, decide_eq_true_eq] at hp
    simp only [regMap, List.mem_cons, List.not_mem_nil, or_false] at hm
    rcases hm with rfl | rfl | rfl | rfl | rfl | rfl | rfl | rfl | rfl | rfl | rfl | rfl <;> simp
    simp at hp; omega
  · simp

/-- R85: the two reserved ranges. -/
theorem regAt_reserved (a : Nat) (h : 0x014 ≤ a ∧ a < 0x020 ∨ 0x300 ≤ a) : regAt a = .reserved := by
  have : regMap.find? (rowHolds a) = none := by
    rw [List.find?_eq_none]
    intro row hm
    simp only [rowHolds, Bool.and_eq_true, decide_eq_true_eq]
    simp only [regMap, List.mem_cons, List.not_mem_nil, or_false] at hm
    rcases hm with rfl | rfl | rfl | rfl | rfl | rfl | rfl | rfl | rfl | rfl | rfl | rfl <;> simp <;> omega
  simp [regAt, this]

end Sys2Proof.Machine
end

