-- ==== Sys2Proof/Laws/Compressor.lean ====
section
/-! SUPPORT. What the rounds do (R240, R243, R244): their count, the working state they leave, and that they compose. -/

namespace Sys2Proof.Machine

theorem roundSteps_zero (s : State) : roundSteps 0 s = s := rfl

theorem roundSteps_succ (n : Nat) (s : State) : roundSteps (n + 1) s = roundSteps n (roundStep s) := rfl

/-- Rounds compose: the split of a count does not matter. -/
theorem roundSteps_add (m n : Nat) (s : State) : roundSteps (m + n) s = roundSteps n (roundSteps m s) := by
  induction m generalizing s with
  | zero => simp [roundSteps_zero]
  | succ m ih => rw [Nat.succ_add, roundSteps_succ, ih, roundSteps_succ]

/-- Only WV and RCNT change. -/
theorem roundSteps_frame (n : Nat) (s : State) :
    roundSteps n s = { s with wv := (roundSteps n s).wv, rcnt := (roundSteps n s).rcnt } := by
  induction n generalizing s with
  | zero => rfl
  | succ n ih => rw [roundSteps_succ, ih]; rfl

theorem roundStep_rcnt_toNat (s : State) (h : s.rcnt.toNat < 64) :
    (roundStep s).rcnt.toNat = s.rcnt.toNat + 1 := by
  simp only [roundStep_rcnt]; bv_omega

theorem roundSteps_rcnt_toNat (n : Nat) (s : State) (h : s.rcnt.toNat + n ≤ 64) :
    (roundSteps n s).rcnt.toNat = s.rcnt.toNat + n := by
  induction n generalizing s with
  | zero => rfl
  | succ n ih =>
    have h1 := roundStep_rcnt_toNat s (by omega)
    rw [roundSteps_succ, ih _ (by omega), h1]; omega

/-- R244: the rounds RCNT, RCNT + 1, ... in order, each with its own constant and schedule word. -/
theorem roundSteps_wv (n : Nat) (s : State) (h : s.rcnt.toNat + n ≤ 64) :
    (roundSteps n s).wv =
      (List.range' s.rcnt.toNat n).foldl (fun v i => nextWork v (kAt i) (s.wAt i)) s.wv := by
  induction n generalizing s with
  | zero => rfl
  | succ n ih =>
    have h1 := roundStep_rcnt_toNat s (by omega)
    rw [roundSteps_succ, ih _ (by omega), h1, List.range'_succ, List.foldl_cons]
    rfl

end Sys2Proof.Machine
end

