-- ==== Sys2Proof/Laws/Constants.lean ====
section
/-! SUPPORT. The integer roots and trial division of the generation rule (R170, R173), and shift and rotate right bit by bit (R145, R146). -/

namespace Sys2Proof.Machine

/-- The root taken bit by bit is the integer root. -/
theorem rootBits_spec (e x : Nat) : ∀ bits r, r ^ e ≤ x → x < (r + 2 ^ bits) ^ e → 
   (rootBits e x bits r) ^ e ≤ x ∧ x < (rootBits e x bits r + 1) ^ e := by
  intro bits
  induction bits with
  | zero => intro r h1 h2; exact ⟨h1, by simpa [rootBits] using h2⟩
  | succ n ih =>
    intro r h1 h2
    rw [rootBits]
    split
    · apply ih _ ‹_›
      rwa [Nat.add_assoc, ← two_mul, ← pow_succ']
    · exact ih _ h1 (by omega)

/-- R173: isqrt is `rootBits 2`, icbrt is `rootBits 3`. -/
theorem rootBits_log2 (e x : Nat) (he : 1 ≤ e) : (rootBits e x (x.log2 + 1) 0) ^ e ≤ x ∧ x < (rootBits e x (x.log2 + 1) 0 + 1) ^ e := by
  apply rootBits_spec e x
  · rw [zero_pow (by omega)]; omega
  · rw [zero_add]
    calc x < 2 ^ (x.log2 + 1) := Nat.lt_log2_self
      _ ≤ (2 ^ (x.log2 + 1)) ^ e := Nat.le_self_pow (by omega) _

/-- R170: trial division decides primality. -/
theorem noDivisor_iff_prime {n : Nat} (h : 2 ≤ n) : noDivisor n = true ↔ n.Prime := by
  have hs := rootBits_log2 2 n (by omega)
  rw [Nat.prime_def_le_sqrt]
  have hq : isqrt n = n.sqrt := by
    rw [Nat.eq_sqrt]; unfold isqrt; constructor
    · nlinarith [hs.1]
    · nlinarith [hs.2]
  simp only [noDivisor, hq, List.all_eq_true, List.mem_range, Bool.or_eq_true, decide_eq_true_eq]
  constructor
  · intro hh
    refine ⟨h, fun m h2 h3 hd => ?_⟩
    rcases hh m (by omega) with h | h
    · omega
    · exact h (Nat.mod_eq_zero_of_dvd hd)
  · rintro ⟨_, hh⟩ d hd
    by_cases h2 : d < 2
    · exact .inl h2
    · exact .inr fun h0 => hh d (by omega) (by omega) (Nat.dvd_of_mod_eq_zero h0)

/-- R146, bit by bit. -/
theorem rotr_getLsbD (x : Word) (n i : Nat) (hn : n ≤ 31) (hi : i < 32) : (rotr x n).getLsbD i = x.getLsbD ((i + n) % 32) := by
  unfold rotr
  split
  · subst n; congr 1; omega
  · simp only [BitVec.getLsbD_or, BitVec.getLsbD_ushiftRight, BitVec.getLsbD_shiftLeft]
    by_cases h : i + n < 32
    · have a : i < 32 - n := by omega
      have b : (i + n) % 32 = n + i := by omega
      simp [a, b, hi]
    · have a : ¬ i < 32 - n := by omega
      have b : (i + n) % 32 = i - (32 - n) := by omega
      simp [a, hi, b, BitVec.getLsbD_of_ge x (n + i) (by omega)]

/-- R145, bit by bit. -/
theorem shr_getLsbD (x : Word) (n i : Nat) : (shr x n).getLsbD i = (decide (i + n < 32) && x.getLsbD (i + n)) := by
  rw [shr, BitVec.getLsbD_ushiftRight, Nat.add_comm]
  by_cases h : i + n < 32
  · simp [h]
  · simp [h]; exact BitVec.getLsbD_of_ge x _ (by omega)

end Sys2Proof.Machine
end

