-- ==== Sys2Proof/Laws/Preprocessor.lean ====
section
/-! SUPPORT. The padded block byte by byte (R194), its words (R87), and the padding function on a one-block message
(R192). -/

namespace Sys2Proof.Machine

theorem padBlock_getD (blk : Vector Byte 64) (n j : Nat) (h : j < 64) :
    (padBlock blk n).getD j 0#8 = padByte blk n j := by
  rw [padBlock, getD_ofFn _ _ _ h]

theorem loadSchedule_getD (blk : Vector Byte 64) (w : Vector Word 64) (i : Nat) :
    (loadSchedule blk w).getD i 0#32 = if i < 16 then blockWord blk i else w.getD i 0#32 := by
  by_cases h : i < 64
  · rw [loadSchedule, getD_ofFn _ _ _ h, getD_of_lt w i _ h]; rfl
  · rw [getD_of_le _ _ _ (by omega), getD_of_le _ _ _ (by omega), if_neg (by omega)]

theorem be64_length (l : BitVec 64) : (be64 l).length = 8 := rfl

/-- On a message of one block z is 55 - n. -/
theorem zeroCount_of_le {n : Nat} (h : n ≤ 55) : zeroCount n = 55 - n := by
  unfold zeroCount; omega

theorem paddingHolds_of_le {n : Nat} (h : n ≤ 55) : paddingHolds n = true := by
  have : (n + 1 + (55 - n)) % 64 = 56 := by omega
  simp [paddingHolds, this]

/-- R194: one block. -/
theorem pad_length_of_le (m : List Byte) (h : m.length ≤ 55) : (pad m).length = 64 := by
  simp [pad, be64_length, zeroCount_of_le h]; omega

theorem message_length (s : State) (h : s.msglen.toNat ≤ 64) : s.message.length = s.msglen.toNat := by
  simp [State.message]; omega

/-- R194: byte j of the padding of a message of n bytes, one block. -/
theorem pad_getD (m : List Byte) (j : Nat) (h : m.length ≤ 55) :
    (pad m).getD j 0#8 =
      if 56 ≤ j then (be64 (bitLength m.length)).getD (j - 56) 0#8
      else if m.length < j then 0x00#8
      else if j = m.length then 0x80#8
      else m.getD j 0#8 := by
  have hz := zeroCount_of_le h
  simp only [pad, List.getD_eq_getElem?_getD, List.getElem?_append, List.length_append, List.length_cons,
    List.length_nil, List.length_replicate, hz]
  split_ifs <;> first
    | omega
    | (congr 2; omega)
    | (have : j - m.length = 0 := by omega
       simp [this])
    | (rw [List.getElem?_replicate]; split_ifs <;> rfl)

/-- The message and its bytes. -/
theorem message_getD (s : State) (j : Nat) (h : j < s.msglen.toNat) : s.message.getD j 0#8 = s.blkAt j := by
  have : s.msglen.toNat < 64 := s.msglen.isLt
  rw [State.message, State.blkAt, getD_of_lt _ _ _ (by omega)]
  have hb : j < s.blk.toList.length := by rw [Vector.length_toList]; omega
  simp [List.getD_eq_getElem?_getD, h, List.getElem?_eq_getElem hb]

/-- R194, R196: the block PAD forms is the padding of the message the engine holds. -/
theorem padBlock_toList (s : State) (h : s.msglen.toNat ≤ 55) :
    (padBlock s.blk s.msglen.toNat).toList = pad s.message := by
  have hl := message_length s (by omega)
  apply List.ext_getElem
  · simp [pad_length_of_le s.message (by omega)]
  · intro j h1 h2
    have hj : j < 64 := by simpa using h1
    have e1 := padBlock_getD s.blk s.msglen.toNat j hj
    rw [getD_of_lt _ _ _ hj] at e1
    have e2 := pad_getD s.message j (by omega)
    rw [List.getD_eq_getElem?_getD, List.getElem?_eq_getElem h2, Option.getD_some] at e2
    rw [Vector.getElem_toList, e1, e2, padByte, hl]
    split_ifs <;> first | rfl | (rw [message_getD s j (by omega)]; rfl)

end Sys2Proof.Machine
end

