-- ==== Sys2Proof/Laws/Schedule.lean ====
section
/-! SUPPORT. What the expansion steps do (R220 to R222): their count, the words they write, the words they leave, and
that they compose. -/

namespace Sys2Proof.Machine

theorem expandSteps_zero (s : State) : expandSteps 0 s = s := rfl

theorem expandSteps_succ (n : Nat) (s : State) : expandSteps (n + 1) s = expandSteps n (expandStep s) := rfl

/-- Steps compose: the split of a count does not matter. -/
theorem expandSteps_add (m n : Nat) (s : State) : expandSteps (m + n) s = expandSteps n (expandSteps m s) := by
  induction m generalizing s with
  | zero => simp [expandSteps_zero]
  | succ m ih => rw [Nat.succ_add, expandSteps_succ, ih, expandSteps_succ]

/-- Only W and SCNT change. -/
theorem expandSteps_frame (n : Nat) (s : State) :
    expandSteps n s = { s with w := (expandSteps n s).w, scnt := (expandSteps n s).scnt } := by
  induction n generalizing s with
  | zero => rfl
  | succ n ih => rw [expandSteps_succ, ih]; rfl

theorem expandStep_scnt_toNat (s : State) (h : s.scnt.toNat < 64) :
    (expandStep s).scnt.toNat = s.scnt.toNat + 1 := by
  simp only [expandStep_scnt]; bv_omega

theorem expandSteps_scnt_toNat (n : Nat) (s : State) (h : s.scnt.toNat + n ≤ 64) :
    (expandSteps n s).scnt.toNat = s.scnt.toNat + n := by
  induction n generalizing s with
  | zero => rfl
  | succ n ih =>
    have h1 := expandStep_scnt_toNat s (by omega)
    rw [expandSteps_succ, ih _ (by omega), h1]; omega

/-- One step writes W[SCNT] and no other word. -/
theorem expandStep_wAt (s : State) (i : Nat) (h : s.scnt.toNat < 64) :
    (expandStep s).wAt i =
      if i = s.scnt.toNat then
        scheduleWord (s.wAt (i - 16)) (s.wAt (i - 15)) (s.wAt (i - 7)) (s.wAt (i - 2))
      else s.wAt i := by
  unfold State.wAt
  rw [expandStep_w, getD_setIfInBounds]
  by_cases hi : i = s.scnt.toNat
  · subst hi; simp [h, State.wAt]
  · have : ¬(s.scnt.toNat = i ∧ s.scnt.toNat < 64) := by omega
    simp [hi, this]

/-- The words outside SCNT .. SCNT + n - 1 stay. -/
theorem expandSteps_wAt_other (n : Nat) (s : State) (i : Nat) (h : s.scnt.toNat + n ≤ 64)
    (hi : i < s.scnt.toNat ∨ s.scnt.toNat + n ≤ i) : (expandSteps n s).wAt i = s.wAt i := by
  induction n generalizing s with
  | zero => rfl
  | succ n ih =>
    have h1 := expandStep_scnt_toNat s (by omega)
    rw [expandSteps_succ, ih _ (by omega) (by omega), expandStep_wAt _ _ (by omega), if_neg (by omega)]

/-- R220, R222: every new word is computed from the words before it, which are final by then. -/
theorem expandSteps_wAt_new (n : Nat) (s : State) (i : Nat) (h16 : 16 ≤ s.scnt.toNat) (h : s.scnt.toNat + n ≤ 64)
    (hl : s.scnt.toNat ≤ i) (hu : i < s.scnt.toNat + n) :
    (expandSteps n s).wAt i =
      scheduleWord ((expandSteps n s).wAt (i - 16)) ((expandSteps n s).wAt (i - 15))
        ((expandSteps n s).wAt (i - 7)) ((expandSteps n s).wAt (i - 2)) := by
  induction n generalizing s with
  | zero => omega
  | succ n ih =>
    have h1 := expandStep_scnt_toNat s (by omega)
    rw [expandSteps_succ]
    by_cases hi : i = s.scnt.toNat
    · subst hi
      rw [expandSteps_wAt_other n _ _ (by omega) (by omega), expandSteps_wAt_other n _ _ (by omega) (by omega),
        expandSteps_wAt_other n _ _ (by omega) (by omega), expandSteps_wAt_other n _ _ (by omega) (by omega),
        expandSteps_wAt_other n _ _ (by omega) (by omega)]
      rw [expandStep_wAt _ _ (by omega), if_pos rfl, expandStep_wAt _ _ (by omega), if_neg (by omega),
        expandStep_wAt _ _ (by omega), if_neg (by omega), expandStep_wAt _ _ (by omega), if_neg (by omega),
        expandStep_wAt _ _ (by omega), if_neg (by omega)]
    · exact ih _ (by omega) (by omega) (by omega) (by omega)

end Sys2Proof.Machine
end

