-- ==== Sys2Proof/Laws/Control.lean ====
section
/-! SUPPORT. What each command's body answers (R191, R196, R221, R243, R270, R296): the new state where its checks pass,
and the whole of HASH as its four stages. -/

namespace Sys2Proof.Machine

/-- The state PAD leaves. -/
def paddedState (s : State) : State :=
  { s with
    blk := padBlock s.blk s.msglen.toNat
    w := loadSchedule (padBlock s.blk s.msglen.toNat) s.w
    scnt := 16#7
    phase := .padded }

theorem padBody_ok (s : State) (hp : s.phase = .load) (hm : s.msglen.toNat ≤ 55) :
    padBody s = .ok (paddedState s) := by
  simp [padBody, hp, paddingHolds_of_le hm, paddedState]

/-- All PAD's body can answer. -/
theorem padBody_inv {s t : State} (h : padBody s = .ok t) :
    s.phase = .load ∧ s.msglen.toNat ≤ 55 ∧ t = paddedState s := by
  unfold padBody at h
  split at h
  · cases h
  · split at h
    · rename_i hp hc
      injection h with h
      refine ⟨by simpa using hp, ?_, h.symm⟩
      simp only [paddingHolds, beq_iff_eq] at hc
      have := s.msglen.isLt
      omega
    · cases h

theorem remaining_eq (d : BitVec 7) : remaining d = 64 - d.toNat := rfl

theorem count_of_zero (d : BitVec 7) : count 0#8 d = 64 - d.toNat := by simp [count, remaining]

theorem count_of_ne_zero {arg : Byte} (h : arg ≠ 0#8) (d : BitVec 7) : count arg d = arg.toNat := by
  simp [count, h]

theorem count_le {arg : Byte} {d : BitVec 7} (h : arg.toNat ≤ 64 - d.toNat) : count arg d ≤ remaining d := by
  unfold count remaining; split <;> omega

theorem count_pos {arg : Byte} {d : BitVec 7} (h : d.toNat ≤ 63) : 1 ≤ count arg d := by
  unfold count remaining
  split
  · omega
  · rename_i hne
    have : arg.toNat ≠ 0 := fun h0 => hne (by simpa using BitVec.eq_of_toNat_eq (y := 0#8) (by simpa using h0))
    omega

theorem expandBody_ok (arg : Byte) (s : State) (hp : s.phase = .padded) (h16 : 16 ≤ s.scnt.toNat)
    (hc : count arg s.scnt ≤ remaining s.scnt) :
    expandBody arg s = .ok (closeSchedule (expandSteps (count arg s.scnt) s)) := by
  simp [expandBody, hp, Nat.not_lt.mpr hc, Nat.not_lt.mpr h16]

/-- All EXPAND's body can answer. -/
theorem expandBody_inv {arg : Byte} {s t : State} (h : expandBody arg s = .ok t) :
    s.phase = .padded ∧ 16 ≤ s.scnt.toNat ∧ count arg s.scnt ≤ 64 - s.scnt.toNat ∧
    t = closeSchedule (expandSteps (count arg s.scnt) s) := by
  unfold expandBody at h
  split at h
  · cases h
  · split at h
    · cases h
    · split at h
      · cases h
      · rename_i hp hc h16
        injection h with h
        refine ⟨by simpa using hp, by omega, ?_, h.symm⟩
        rw [← remaining_eq]; omega

theorem roundBody_ok (arg : Byte) (s : State) (hp : s.phase = .expanded ∨ s.phase = .compress)
    (hc : count arg s.rcnt ≤ remaining s.rcnt) :
    roundBody arg s = .ok (closeRounds (roundSteps (count arg s.rcnt) (openWork s))) := by
  have hq : ¬(s.phase ≠ .expanded ∧ s.phase ≠ .compress) := by
    rcases hp with h | h <;> simp [h]
  rw [roundBody, if_neg hq, if_neg (Nat.not_lt.mpr hc)]

/-- All ROUND's body can answer. -/
theorem roundBody_inv {arg : Byte} {s t : State} (h : roundBody arg s = .ok t) :
    (s.phase = .expanded ∨ s.phase = .compress) ∧ count arg s.rcnt ≤ 64 - s.rcnt.toNat ∧
    t = closeRounds (roundSteps (count arg s.rcnt) (openWork s)) := by
  unfold roundBody at h
  split at h
  · cases h
  · split at h
    · cases h
    · rename_i hp hc
      injection h with h
      refine ⟨by by_contra hn; exact hp (not_or.mp hn), ?_, h.symm⟩
      rw [← remaining_eq]; omega

theorem openWork_of_expanded {s : State} (h : s.phase = .expanded) : openWork s = loadWorking s := by
  simp [openWork, h]

theorem openWork_of_compress {s : State} (h : s.phase = .compress) : openWork s = s := by
  simp [openWork, h]

theorem openWork_phase {s : State} (h : s.phase = .expanded ∨ s.phase = .compress) : (openWork s).phase = .compress := by
  rcases h with h | h
  · simp [openWork_of_expanded h]
  · simp [openWork_of_compress h, h]

theorem finalBody_ok (s : State) (hp : s.phase = .compressed) :
    finalBody s = .ok { s with h := foldWork s.h s.wv, phase := .done } := by
  simp [finalBody, hp]

/-- All FINAL's body can answer. -/
theorem finalBody_inv {s t : State} (h : finalBody s = .ok t) :
    s.phase = .compressed ∧ t = { s with h := foldWork s.h s.wv, phase := .done } := by
  unfold finalBody at h
  split at h
  · cases h
  · rename_i hp
    injection h with h
    exact ⟨by simpa using hp, h.symm⟩

theorem pushBody_ok (b : Byte) (s : State) (hp : s.phase = .load) (hm : s.msglen ≠ 55#6) :
    pushBody b s = .ok { s with blk := s.blk.setIfInBounds s.msglen.toNat b, msglen := s.msglen + 1#6 } := by
  simp [pushBody, hp, hm]

/-- All PUSH's body can answer. -/
theorem pushBody_inv {b : Byte} {s t : State} (h : pushBody b s = .ok t) :
    s.phase = .load ∧ s.msglen ≠ 55#6 ∧
    t = { s with blk := s.blk.setIfInBounds s.msglen.toNat b, msglen := s.msglen + 1#6 } := by
  unfold pushBody at h
  split at h
  · cases h
  · split at h
    · cases h
    · rename_i hp hm
      injection h with h
      exact ⟨by simpa using hp, hm, h.symm⟩

/-- R296: HASH that answers a state ran its four stages. -/
theorem hashBody_inv {s t : State} (h : hashBody s = .ok t) :
    ∃ p e c, padBody s = .ok p ∧ expandBody 0#8 p = .ok e ∧ roundBody 0#8 e = .ok c ∧ finalBody c = .ok t := by
  unfold hashBody at h
  split at h
  · cases h
  · cases hp : padBody s with
    | error a => simp [hp, bind, Except.bind] at h
    | ok p =>
      cases he : expandBody 0#8 p with
      | error a => simp [hp, he, bind, Except.bind] at h
      | ok e =>
        cases hc : roundBody 0#8 e with
        | error a => simp [hp, he, hc, bind, Except.bind] at h
        | ok c =>
          refine ⟨p, e, c, rfl, he, hc, ?_⟩
          simpa [hp, he, hc, bind, Except.bind] using h

/-- R296: HASH whose four stages answer states answers the last. -/
theorem hashBody_ok {s p e c t : State} (hs : s.phase = .load) (hp : padBody s = .ok p)
    (he : expandBody 0#8 p = .ok e) (hc : roundBody 0#8 e = .ok c) (ht : finalBody c = .ok t) :
    hashBody s = .ok t := by
  simp [hashBody, hs, hp, he, hc, ht, bind, Except.bind]

/-- EXPAND writes W, SCNT and PHASE only. -/
theorem expandBody_frame {arg : Byte} {s t : State} (h : expandBody arg s = .ok t) :
    t = { s with w := t.w, scnt := t.scnt, phase := t.phase } := by
  have e := (expandBody_inv h).2.2.2
  have f : ∀ u : State, closeSchedule u = { u with phase := (closeSchedule u).phase } := by
    intro u; unfold closeSchedule; split <;> rfl
  rw [e, f, expandSteps_frame]

/-- ROUND writes WV, RCNT and PHASE only. -/
theorem roundBody_frame {arg : Byte} {s t : State} (h : roundBody arg s = .ok t) :
    t = { s with wv := t.wv, rcnt := t.rcnt, phase := t.phase } := by
  have e := (roundBody_inv h).2.2
  have f : ∀ u : State, closeRounds u = { u with phase := (closeRounds u).phase } := by
    intro u; unfold closeRounds; split <;> rfl
  have g : openWork s = { s with wv := (openWork s).wv, phase := (openWork s).phase } := by
    unfold openWork; split <;> rfl
  rw [e, f, roundSteps_frame, g]

/-- HASH writes PHASE, BLK, W, SCNT, WV, RCNT and H only. -/
theorem hashBody_frame {s t : State} (h : hashBody s = .ok t) :
    t = { s with
      phase := t.phase, blk := t.blk, w := t.w, scnt := t.scnt, wv := t.wv, rcnt := t.rcnt, h := t.h } := by
  obtain ⟨p, e, c, hp, he, hc, ht⟩ := hashBody_inv h
  rw [(finalBody_inv ht).2, roundBody_frame hc, expandBody_frame he, (padBody_inv hp).2.2]
  rfl

end Sys2Proof.Machine
end

