-- ==== Sys2Proof/Laws/Encoding.lean ====
section
/-! SUPPORT. A command word and its fields (R111). -/

namespace Sys2Proof.Machine

/-- R111: a word is its three fields. -/
theorem commandWord_split (c : Word) : c = c.extractLsb' 24 8 ++ c.extractLsb' 8 16 ++ c.extractLsb' 0 8 := by
  apply BitVec.eq_of_getLsbD_eq; intro i hi
  simp only [BitVec.getLsbD_append, BitVec.getLsbD_extractLsb']
  split_ifs <;> (rw [decide_eq_true (by omega), Bool.true_and]; congr 1; omega)

/-- R111: the fields of a word made of three. -/
theorem fields_of_append (op arg : Byte) (r : BitVec 16) : (op ++ r ++ arg : Word).extractLsb' 24 8 = op ∧ (op ++ r ++ arg : Word).extractLsb' 8 16 = r ∧ (op ++ r ++ arg : Word).extractLsb' 0 8 = arg := by
  refine ⟨?_, ?_, ?_⟩ <;> (apply BitVec.eq_of_getLsbD_eq; intro i hi; simp only [BitVec.getLsbD_append, BitVec.getLsbD_extractLsb', decide_eq_true hi, Bool.true_and])
    <;> split_ifs <;> first | omega | (congr 1; omega)

end Sys2Proof.Machine
end

