-- ==== Sys2Proof/Laws/Errors.lean ====
section
/-! SUPPORT. All the errors and the fault each command can answer, and when (R313). -/

namespace Sys2Proof.Machine

/-- The errors of PUSH, and when. -/
theorem pushBody_error {b : Byte} {s : State} {c : ErrCode} (h : pushBody b s = .error (.error c)) :
    (s.phase ≠ .load ∧ c = .sequence) ∨ (c = .msgTooLong ∧ s.phase = .load ∧ s.msglen = 55#6) := by
  unfold pushBody at h
  split at h
  · injection h with h; injection h with h; exact .inl ⟨‹_›, h.symm⟩
  · split at h
    · injection h with h; injection h with h; exact .inr ⟨h.symm, by simp_all, ‹_›⟩
    · cases h

/-- The errors of PAD, and when. -/
theorem padBody_error {s : State} {c : ErrCode} (h : padBody s = .error (.error c)) :
    (s.phase ≠ .load ∧ c = .sequence) ∨ (c = .paddingInvariant ∧ 55 < s.msglen.toNat) := by
  unfold padBody at h
  split at h
  · injection h with h; injection h with h; exact .inl ⟨‹_›, h.symm⟩
  · split at h
    · cases h
    · rename_i hn
      injection h with h; injection h with h; refine .inr ⟨h.symm, ?_⟩
      by_contra hh; exact hn (paddingHolds_of_le (by omega))

/-- The errors of EXPAND, and when. -/
theorem expandBody_error {n : Byte} {s : State} {c : ErrCode} (h : expandBody n s = .error (.error c)) :
    (s.phase ≠ .padded ∧ c = .sequence) ∨ (c = .badCount ∧ remaining s.scnt < count n s.scnt) := by
  unfold expandBody at h
  split at h
  · injection h with h; injection h with h; exact .inl ⟨‹_›, h.symm⟩
  · split at h
    · injection h with h; injection h with h; exact .inr ⟨h.symm, ‹_›⟩
    · split at h
      · injection h with h; cases h
      · cases h

/-- The errors of ROUND, and when. -/
theorem roundBody_error {n : Byte} {s : State} {c : ErrCode} (h : roundBody n s = .error (.error c)) :
    (¬ (s.phase = .expanded ∨ s.phase = .compress) ∧ c = .sequence) ∨ (c = .badCount ∧ remaining s.rcnt < count n s.rcnt) := by
  unfold roundBody at h
  split at h
  · injection h with h; injection h with h; refine .inl ⟨?_, h.symm⟩; rename_i hh; rintro (e | e) <;> simp [e] at hh
  · split at h
    · injection h with h; injection h with h; exact .inr ⟨h.symm, ‹_›⟩
    · cases h

/-- The error of FINAL, and when. -/
theorem finalBody_error {s : State} {c : ErrCode} (h : finalBody s = .error (.error c)) : s.phase ≠ .compressed ∧ c = .sequence := by
  unfold finalBody at h
  split at h
  · injection h with h; injection h with h; exact ⟨‹_›, h.symm⟩
  · cases h

/-- R112: the count 0 always remains. -/
theorem count_zero_remains (d : BitVec 7) : ¬ remaining d < count 0#8 d := by simp [count]

/-- The errors of HASH, and when. -/
theorem hashBody_error {s : State} {c : ErrCode} (h : hashBody s = .error (.error c)) :
    (s.phase ≠ .load ∧ c = .sequence) ∨ (c = .paddingInvariant ∧ 55 < s.msglen.toNat) ∨ (c = .sequence ∧ 64 < s.rcnt.toNat) := by
  unfold hashBody at h
  split at h
  · injection h with h; injection h with h; exact .inl ⟨‹_›, h.symm⟩
  · rename_i hp
    have hp : s.phase = .load := by simpa using hp
    simp only [bind, Except.bind] at h
    split at h
    · rename_i hh; injection h with h; subst h
      rcases padBody_error hh with h | h
      · exact .inl h
      · exact .inr (.inl h)
    · rename_i p hh
      have e := (padBody_inv hh).2.2
      split at h
      · rename_i hh; injection h with h; subst h
        rcases expandBody_error hh with ⟨h, _⟩ | ⟨_, h⟩
        · rw [e] at h; exact absurd rfl h
        · exact absurd h (count_zero_remains _)
      · rename_i q hq
        have hq64 := (expandBody_inv hq).2.2.2
        have hqp : q.phase = .expanded := by
          have := expandSteps_scnt_toNat (count 0#8 p.scnt) p (by rw [count_of_zero, e]; simp [paddedState])
          rw [hq64, closeSchedule, if_pos]
          apply BitVec.eq_of_toNat_eq; rw [this, count_of_zero, e]; simp [paddedState]
        split at h
        · rename_i hh; injection h with h; subst h
          rcases roundBody_error hh with ⟨h, _⟩ | ⟨_, h⟩
          · exact absurd (.inl hqp) h
          · exact absurd h (count_zero_remains _)
        · rename_i r hr
          obtain ⟨h1, h2⟩ := finalBody_error h
          refine .inr (.inr ⟨h2, ?_⟩)
          by_contra hle
          have qr : q.rcnt = s.rcnt := by rw [expandBody_frame hq, e]; rfl
          apply h1
          rw [(roundBody_inv hr).2.2]
          have := roundSteps_rcnt_toNat (count 0#8 q.rcnt) (openWork q) (by rw [count_of_zero, openWork_rcnt, qr]; omega)
          rw [closeRounds, if_pos]
          apply BitVec.eq_of_toNat_eq; rw [this, count_of_zero, openWork_rcnt, qr]; simp; omega

/-- R313: the error of a body is in the list of its command. -/
theorem bodyOf_error {i : Instr} {s : State} {c : ErrCode} (h : bodyOf i s = .error (.error c)) : c ∈ errorsOf i := by
  cases i with
  | nop => cases h
  | init => cases h
  | push b => rcases pushBody_error h with ⟨_, rfl⟩ | ⟨rfl, _⟩ <;> simp [errorsOf]
  | pad => rcases padBody_error h with ⟨_, rfl⟩ | ⟨rfl, _⟩ <;> decide
  | expand n => rcases expandBody_error h with ⟨_, rfl⟩ | ⟨rfl, _⟩ <;> simp [errorsOf]
  | round n => rcases roundBody_error h with ⟨_, rfl⟩ | ⟨rfl, _⟩ <;> simp [errorsOf]
  | final => rw [(finalBody_error h).2]; decide
  | hash => rcases hashBody_error h with ⟨_, rfl⟩ | ⟨rfl, _⟩ | ⟨rfl, _⟩ <;> decide

/-- The one fault (DESIGN CHOICE, log entry 7), and when. -/
theorem bodyOf_fault {i : Instr} {s : State} {r : Fault} (h : bodyOf i s = .error (.fault r)) :
    s.phase = .padded ∧ s.scnt.toNat < 16 := by
  have ex : ∀ (n : Byte) (s : State), expandBody n s = .error (.fault r) → s.phase = .padded ∧ s.scnt.toNat < 16 := by
    intro n s h
    unfold expandBody at h
    split at h
    · injection h with h; cases h
    · split at h
      · injection h with h; cases h
      · split at h
        · exact ⟨by simp_all, ‹_›⟩
        · cases h
  have rx : ∀ (n : Byte) (s : State), roundBody n s ≠ .error (.fault r) := by
    intro n s h
    unfold roundBody at h
    split at h
    · injection h with h; cases h
    · split at h
      · injection h with h; cases h
      · cases h
  have px : ∀ (s : State), padBody s ≠ .error (.fault r) := by
    intro s h
    unfold padBody at h
    split at h
    · injection h with h; cases h
    · split at h
      · cases h
      · injection h with h; cases h
  have fx : ∀ (s : State), finalBody s ≠ .error (.fault r) := by
    intro s h
    unfold finalBody at h
    split at h
    · injection h with h; cases h
    · cases h
  cases i with
  | nop => cases h
  | init => cases h
  | push b =>
    simp only [bodyOf, pushBody] at h
    split at h
    · injection h with h; cases h
    · split at h
      · injection h with h; cases h
      · cases h
  | pad => exact absurd h (px s)
  | expand n => exact ex n s h
  | round n => exact absurd h (rx n s)
  | final => exact absurd h (fx s)
  | hash =>
    simp only [bodyOf, hashBody, bind, Except.bind] at h
    split at h
    · injection h with h; cases h
    · split at h
      · rename_i hh; injection h with h; subst h; exact absurd hh (px _)
      · rename_i p hh
        split at h
        · rename_i hq; injection h with h; subst h
          have := ex _ _ hq
          rw [(padBody_inv hh).2.2] at this; simp [paddedState] at this
        · split at h
          · rename_i hh; injection h with h; subst h; exact absurd hh (rx _ _)
          · exact absurd h (fx _)

end Sys2Proof.Machine
end

