-- ==== Sys2Proof/Laws/PerInstr.lean ====
section
/-! SUPPORT. Statements made per constructor of Instr. EncodeWellFormed: the word of every command, with every operand,
is well-formed (R114). -/

namespace Sys2Proof.Laws.EncodeWellFormed

/-- R114: the word of the command passes the three checks. -/
def Statement (i : Instr) : Prop := wellFormed (encode i) = true

/-- R114, of a word of the fields OP, RSV = 0 and ARG. -/
theorem of_fields (op arg : Byte) (hop : op.toNat ≤ 7)
    (harg : arg = 0#8 ∨ op = 0x02#8 ∨ op = 0x04#8 ∨ op = 0x05#8) : wellFormed (commandWord op arg) = true := by
  obtain ⟨h1, h2, h3⟩ := Machine.fields_of_append op arg 0#16
  simp only [wellFormed, opcodeKnown, reservedZero, argAllowed, commandWord, h1, h2, h3]
  rcases harg with h | h | h | h <;> simp [h]
  simpa using hop

theorem nop : Statement .nop := of_fields _ _ (by decide) (.inl rfl)

theorem init : Statement .init := of_fields _ _ (by decide) (.inl rfl)

theorem push (byte : Byte) : Statement (.push byte) := of_fields _ _ (by decide) (.inr (.inl rfl))

theorem pad : Statement .pad := of_fields _ _ (by decide) (.inl rfl)

theorem expand (arg : Byte) : Statement (.expand arg) := of_fields _ _ (by decide) (.inr (.inr (.inl rfl)))

theorem round (arg : Byte) : Statement (.round arg) := of_fields _ _ (by decide) (.inr (.inr (.inr rfl)))

theorem final : Statement .final := of_fields _ _ (by decide) (.inl rfl)

theorem hash : Statement .hash := of_fields _ _ (by decide) (.inl rfl)

end Sys2Proof.Laws.EncodeWellFormed
end

