-- ==== Sys2Proof/Laws/Reference.lean ====
section
/-! SUPPORT. The source's pure function: its words, its schedule, its rounds (R87, R220, R240); the message through PUSH and PAD. -/

namespace Sys2Proof.Machine

theorem extendSchedule_length (n : Nat) (ws : List Word) : (extendSchedule n ws).length = ws.length + n := by
  induction n generalizing ws with
  | zero => rfl
  | succ n ih => simp [extendSchedule, ih]; omega

/-- The words already there stay. -/
theorem extendSchedule_old (n : Nat) (ws : List Word) (i : Nat) (h : i < ws.length) :
    (extendSchedule n ws).getD i 0#32 = ws.getD i 0#32 := by
  induction n generalizing ws with
  | zero => rfl
  | succ n ih =>
    rw [extendSchedule, ih _ (by simp; omega)]
    simp [List.getD_eq_getElem?_getD, List.getElem?_append, h]

/-- R220: each new word. -/
theorem extendSchedule_new (n : Nat) (ws : List Word) (i : Nat) (h16 : 16 ≤ ws.length) (hl : ws.length ≤ i) (hu : i < ws.length + n) :
    (extendSchedule n ws).getD i 0#32 =
      scheduleWord ((extendSchedule n ws).getD (i - 16) 0#32) ((extendSchedule n ws).getD (i - 15) 0#32)
        ((extendSchedule n ws).getD (i - 7) 0#32) ((extendSchedule n ws).getD (i - 2) 0#32) := by
  induction n generalizing ws with
  | zero => omega
  | succ n ih =>
    rw [extendSchedule]
    by_cases hi : i = ws.length
    · subst hi
      have q : ∀ j, j ≤ ws.length → j < (ws ++ [followingWord ws]).length := by intro j hj; simp; omega
      rw [extendSchedule_old n _ _ (q ws.length (by omega)), extendSchedule_old n _ _ (q (ws.length - 16) (by omega)), extendSchedule_old n _ _ (q (ws.length - 15) (by omega)),
        extendSchedule_old n _ _ (q (ws.length - 7) (by omega)), extendSchedule_old n _ _ (q (ws.length - 2) (by omega))]
      have g : ∀ j, j < ws.length → (ws ++ [followingWord ws]).getD j 0#32 = ws.getD j 0#32 := by
        intro j hj; simp [List.getD_eq_getElem?_getD, List.getElem?_append, hj]
      rw [g (ws.length - 16) (by omega), g (ws.length - 15) (by omega), g (ws.length - 7) (by omega), g (ws.length - 2) (by omega)]
      simp [List.getD_eq_getElem?_getD, followingWord]
    · exact ih _ (by simp; omega) (by simp; omega) (by simp; omega)

theorem wordsOf_length : ∀ (l : List Byte), (wordsOf l).length = l.length / 4
  | b0 :: b1 :: b2 :: b3 :: rest => by rw [wordsOf, List.length_cons, wordsOf_length rest]; simp; omega
  | [] => rfl
  | [_] => by simp [wordsOf]
  | [_, _] => by simp [wordsOf]
  | [_, _, _] => by simp [wordsOf]

/-- R87: word j is bytes 4j to 4j + 3. -/
theorem wordsOf_getD : ∀ (l : List Byte) (j : Nat), 4 * j + 3 < l.length → (wordsOf l).getD j 0#32 =
    pack4 (l.getD (4 * j) 0#8) (l.getD (4 * j + 1) 0#8) (l.getD (4 * j + 2) 0#8) (l.getD (4 * j + 3) 0#8)
  | b0 :: b1 :: b2 :: b3 :: rest, j, h => by
    cases j with
    | zero => rfl
    | succ j =>
      rw [wordsOf, List.getD_cons_succ, wordsOf_getD rest j (by simp at h; omega)]
      rfl
  | [], _, h => by simp at h
  | [_], _, h => by simp at h
  | [_, _], _, h => by simp at h
  | [_, _, _], _, h => by simp at h

/-- R38: 64 words. -/
theorem scheduleOf_length {m : List Byte} (h : m.length ≤ 55) : (scheduleOf m).length = 64 := by
  rw [scheduleOf, extendSchedule_length, wordsOf_length, pad_length_of_le _ h]

/-- R220: words 16 to 63. -/
theorem scheduleOf_step {m : List Byte} (h : m.length ≤ 55) (i : Nat) (h1 : 16 ≤ i) (h2 : i < 64) :
    (scheduleOf m).getD i 0#32 =
      scheduleWord ((scheduleOf m).getD (i - 16) 0#32) ((scheduleOf m).getD (i - 15) 0#32)
        ((scheduleOf m).getD (i - 7) 0#32) ((scheduleOf m).getD (i - 2) 0#32) := by
  have hl : (wordsOf (pad m)).length = 16 := by rw [wordsOf_length, pad_length_of_le _ h]
  exact extendSchedule_new 48 _ i (by omega) (by omega) (by omega)

/-- R196: words 0 to 15. -/
theorem scheduleOf_first {m : List Byte} (h : m.length ≤ 55) (i : Nat) (h1 : i < 16) :
    (scheduleOf m).getD i 0#32 =
      pack4 ((pad m).getD (4 * i) 0#8) ((pad m).getD (4 * i + 1) 0#8) ((pad m).getD (4 * i + 2) 0#8) ((pad m).getD (4 * i + 3) 0#8) := by
  have hl : (wordsOf (pad m)).length = 16 := by rw [wordsOf_length, pad_length_of_le _ h]
  rw [scheduleOf, extendSchedule_old _ _ _ (by omega), wordsOf_getD _ _ (by rw [pad_length_of_le _ h]; omega)]

/-- R240: one more round. -/
theorem workAfter_succ {ws : List Word} (hw : ws.length = 64) (r : Nat) (h : r < 64) :
    workAfter (r + 1) ws = nextWork (workAfter r ws) (kAt r) (ws.getD r 0#32) := by
  have hk : kList.length = 64 := by decide
  have hz : (kList.zip ws).length = 64 := by simp [hk, hw]
  unfold workAfter
  rw [List.take_add_one, List.getElem?_eq_getElem (by omega), Option.toList_some, List.foldl_append]
  simp only [List.foldl_cons, List.foldl_nil, List.getElem_zip]
  congr 1
  · rw [kAt, List.getD_eq_getElem?_getD, List.getElem?_eq_getElem (by omega), Option.getD_some]
  · rw [List.getD_eq_getElem?_getD, List.getElem?_eq_getElem (by omega), Option.getD_some]

/-- R244: n more rounds. -/
theorem workAfter_fold {ws : List Word} (hw : ws.length = 64) (f : Nat → Word) (hf : ∀ i, i < 64 → f i = ws.getD i 0#32)
    (n r : Nat) (h : r + n ≤ 64) :
    (List.range' r n).foldl (fun v i => nextWork v (kAt i) (f i)) (workAfter r ws) = workAfter (r + n) ws := by
  induction n generalizing r with
  | zero => rfl
  | succ n ih =>
    rw [List.range'_succ, List.foldl_cons, hf r (by omega), ← workAfter_succ hw r (by omega), ih _ (by omega)]
    congr 1; omega

/-- R242: before the first round. -/
theorem workAfter_zero (ws : List Word) : workAfter 0 ws = workOf ivRom := by
  simp [workAfter]

/-- PAD keeps the message. -/
theorem paddedState_message (s : State) (hm : s.msglen.toNat ≤ 55) : (paddedState s).message = s.message := by
  have hl := message_length s (by omega)
  show List.take s.msglen.toNat (padBlock s.blk s.msglen.toNat).toList = _
  rw [padBlock_toList s hm]
  simp only [pad, List.append_assoc]
  rw [List.take_append_of_le_length (by omega), List.take_of_length_le (by omega)]

/-- R191: the message after a PUSH. -/
theorem push_message {b : Byte} {s : State} (hm : s.msglen.toNat < 55) : 
   ({ s with blk := s.blk.setIfInBounds s.msglen.toNat b, msglen := s.msglen + 1#6 } : State).message = s.message ++ [b] := by
  have hl : (s.msglen + 1#6).toNat = s.msglen.toNat + 1 := by bv_omega
  have h64 : s.msglen.toNat < 64 := by omega
  simp only [State.message, hl]
  rw [List.take_add_one]
  congr 1
  · rw [Vector.toList_setIfInBounds, List.take_set_of_le (le_refl _)]
  · simp [h64]

theorem zeroSchedule_getD (i : Nat) : (Vector.replicate 64 0#32).getD i 0#32 = 0#32 := by
  by_cases h : i < 64
  · simp [Vector.getD, h]
  · exact getD_of_le _ _ _ (by omega)

/-- R192: the value of the eight bytes. -/
theorem be64_value (l : BitVec 64) : (be64 l).foldl (fun acc b => 256 * acc + b.toNat) 0 = l.toNat := by
  simp [be64, BitVec.extractLsb'_toNat, Nat.shiftRight_eq_div_pow]
  omega

end Sys2Proof.Machine
end

