-- ==== Sys2Proof/Laws/Rows.lean ====
section
/-! SUPPORT. What every command keeps, and the row of R48 that each leads to. -/

namespace Sys2Proof.Machine

/-- No command writes BUSY, PEND or the model's own fields. -/
theorem bodyOf_keeps_own {i : Instr} {s t : State} (h : bodyOf i s = .ok t) :
    t.pend = s.pend ∧ t.busy = s.busy ∧ t.rstN = s.rstN ∧ t.moves = s.moves ∧ t.replies = s.replies ∧ t.draws = s.draws := by
  cases i with
  | nop => injection h with h; subst h; simp
  | init => injection h with h; subst h; simp
  | push b => rw [(pushBody_inv h).2.2]; simp
  | pad => rw [(padBody_inv h).2.2]; simp [paddedState]
  | expand n => rw [expandBody_frame h]; simp
  | round n => rw [roundBody_frame h]; simp
  | final => rw [(finalBody_inv h).2]; simp
  | hash => rw [hashBody_frame h]; simp

/-- Only INIT writes ERR and ERRCMD, an error aside. -/
theorem bodyOf_keeps_error_record {i : Instr} {s t : State} (hi : i ≠ .init) (h : bodyOf i s = .ok t) : t.err = s.err ∧ t.errcmd = s.errcmd := by
  cases i with
  | nop => injection h with h; subst h; simp
  | init => exact absurd rfl hi
  | push b => rw [(pushBody_inv h).2.2]; simp
  | pad => rw [(padBody_inv h).2.2]; simp [paddedState]
  | expand n => rw [expandBody_frame h]; simp
  | round n => rw [roundBody_frame h]; simp
  | final => rw [(finalBody_inv h).2]; simp
  | hash => rw [hashBody_frame h]; simp

/-- The row of R48 reads these elements only. -/
theorem row_of_eq {p : Phase} {s t : State} (h1 : t.msglen = s.msglen) (h2 : t.scnt = s.scnt) (h3 : t.rcnt = s.rcnt)
   (h4 : t.h = s.h) (h5 : t.blk = s.blk) (h6 : t.w = s.w) (h7 : t.wv = s.wv) (h : Row p s) : Row p t := by
  cases p <;> simp only [Row, State.blkAt] at * <;> simp only [h1, h2, h3, h4, h5, h6, h7] <;> exact h

/-- The row after INIT (R295). -/
theorem init_row (s : State) : Row .load (initState s) := by
  refine ⟨by simp, rfl, rfl, rfl, ?_, rfl, rfl⟩
  intro j _ h; simp [State.blkAt, Vector.getD, h]

/-- The row after PUSH (R191). -/
theorem push_row {b : Byte} {s t : State} (h : pushBody b s = .ok t) (hr : Row .load s) : t.phase = .load ∧ Row .load t := by
  obtain ⟨hp, hm, e⟩ := pushBody_inv h
  obtain ⟨r1, r2, r3, r4, r5, r6, r7⟩ := hr
  have hm' : s.msglen.toNat ≠ 55 := fun hh => hm (BitVec.eq_of_toNat_eq (by simpa using hh))
  have hl : (s.msglen + 1#6).toNat = s.msglen.toNat + 1 := by bv_omega
  subst e
  refine ⟨hp, by simp only [hl]; omega, r2, r3, r4, ?_, r6, r7⟩
  intro j h1 h2
  simp only [State.blkAt, getD_setIfInBounds]
  simp only [hl] at h1
  rw [if_neg (by omega)]
  exact r5 j (by omega) h2

/-- The row after PAD (R196). -/
theorem pad_row {s t : State} (h : padBody s = .ok t) (hr : Row .load s) : t.phase = .padded ∧ Row .padded t := by
  obtain ⟨hp, hm, e⟩ := padBody_inv h
  obtain ⟨r1, r2, r3, r4, _⟩ := hr
  subst e
  exact ⟨rfl, r1, by simp [paddedState], by simp [paddedState], r3, r4⟩

/-- R221: EXPAND leads to PADDED or EXPANDED, with its row; EXPAND 0 to EXPANDED. -/
theorem expand_row {arg : Byte} {s t : State} (h : expandBody arg s = .ok t) (hr : Row .padded s) :
    Row t.phase t ∧ (arg = 0#8 → t.phase = .expanded) ∧ (t.phase = .padded ∨ t.phase = .expanded) := by
  obtain ⟨hp, h16, hc, e⟩ := expandBody_inv h
  obtain ⟨r1, r2, r3, r4, r5⟩ := hr
  have hs := expandSteps_scnt_toNat (count arg s.scnt) s (by omega)
  have fr := expandSteps_frame (count arg s.scnt) s
  have q1 : (expandSteps (count arg s.scnt) s).msglen = s.msglen := by rw [fr]
  have q2 : (expandSteps (count arg s.scnt) s).rcnt = s.rcnt := by rw [fr]
  have q3 : (expandSteps (count arg s.scnt) s).h = s.h := by rw [fr]
  have q4 : (expandSteps (count arg s.scnt) s).phase = .padded := by rw [fr]; exact hp
  generalize expandSteps (count arg s.scnt) s = u at *
  unfold closeSchedule at e
  split at e
  · rename_i h64; subst e; simp only; refine ⟨?_, fun _ => trivial, .inr trivial⟩
    simp only [Row, h64, q1, q2, q3]; exact ⟨r1, trivial, r4, r5⟩
  · rename_i h64; subst e; rw [q4]
    refine ⟨?_, ?_, .inl rfl⟩
    · simp only [Row, q1, q2, q3]
      refine ⟨r1, by omega, ?_, r4, r5⟩
      have : t.scnt.toNat ≠ 64 := fun hh => h64 (BitVec.eq_of_toNat_eq (by simpa using hh))
      omega
    · intro h0; subst h0
      rw [count_of_zero] at hs
      exact absurd (BitVec.eq_of_toNat_eq (by simp; omega)) h64

/-- R243: ROUND leads to COMPRESS or COMPRESSED, with its row; ROUND 0 to COMPRESSED. -/
theorem round_row {arg : Byte} {s t : State} (h : roundBody arg s = .ok t) 
    (hr : (s.phase = .expanded ∧ Row .expanded s) ∨ (s.phase = .compress ∧ Row .compress s)) :
    Row t.phase t ∧ (arg = 0#8 → t.phase = .compressed) ∧ (t.phase = .compress ∨ t.phase = .compressed) := by
  obtain ⟨hp, hc, e⟩ := roundBody_inv h
  have hrow : s.msglen.toNat ≤ 55 ∧ s.scnt = 64#7 ∧ s.rcnt.toNat ≤ 63 ∧ s.h = ivRom := by
    rcases hr with ⟨_, r1, r2, r3, r4⟩ | ⟨_, r1, r2, r3, r4, r5⟩
    · exact ⟨r1, r2, by simp [r3], r4⟩
    · exact ⟨r1, r2, r4, r5⟩
  obtain ⟨r1, r2, r3, r4⟩ := hrow
  have hpos := count_pos (arg := arg) r3
  have hs := roundSteps_rcnt_toNat (count arg s.rcnt) (openWork s) (by simp; omega)
  have hph := openWork_phase hp
  simp only [openWork_rcnt] at hs
  have fr := roundSteps_frame (count arg s.rcnt) (openWork s)
  have q1 : (roundSteps (count arg s.rcnt) (openWork s)).msglen = s.msglen := by rw [fr]; simp
  have q2 : (roundSteps (count arg s.rcnt) (openWork s)).scnt = s.scnt := by rw [fr]; simp
  have q3 : (roundSteps (count arg s.rcnt) (openWork s)).h = s.h := by rw [fr]; simp
  have q4 : (roundSteps (count arg s.rcnt) (openWork s)).phase = .compress := by rw [fr]; exact hph
  generalize roundSteps (count arg s.rcnt) (openWork s) = u at *
  unfold closeRounds at e
  split at e
  · rename_i h64; subst e; simp only; refine ⟨?_, fun _ => trivial, .inr trivial⟩
    simp only [Row, h64, q1, q2, q3]; exact ⟨r1, r2, trivial, r4⟩
  · rename_i h64; subst e; rw [q4]
    refine ⟨?_, ?_, .inl rfl⟩
    · simp only [Row, q1, q2, q3]
      refine ⟨r1, r2, by omega, ?_, r4⟩
      have : t.rcnt.toNat ≠ 64 := fun hh => h64 (BitVec.eq_of_toNat_eq (by simpa using hh))
      omega
    · intro h0; subst h0
      rw [count_of_zero] at hs
      exact absurd (BitVec.eq_of_toNat_eq (by simp; omega)) h64

/-- The row after FINAL (R270). -/
theorem final_row {s t : State} (h : finalBody s = .ok t) (hr : Row .compressed s) : t.phase = .done ∧ Row .done t := by
  obtain ⟨hp, e⟩ := finalBody_inv h
  obtain ⟨r1, r2, r3, r4⟩ := hr
  subst e
  exact ⟨rfl, r1, r2, r3, by simp [r4]⟩

/-- The row after HASH (R296). -/
theorem hash_row {s t : State} (h : hashBody s = .ok t) (hr : Row .load s) : t.phase = .done ∧ Row .done t := by
  obtain ⟨p, e, c, hp, he, hc, ht⟩ := hashBody_inv h
  obtain ⟨_, rp⟩ := pad_row hp hr
  obtain ⟨re, pe, _⟩ := expand_row he rp
  have pe := pe rfl
  rw [pe] at re
  obtain ⟨rc, pc, _⟩ := round_row hc (.inl ⟨pe, re⟩)
  rw [pc rfl] at rc
  exact final_row ht rc

/-- A command that answers a state answers one in the row of its phase. -/
theorem bodyOf_row {i : Instr} {s t : State} (h : bodyOf i s = .ok t) (hr : Row s.phase s) : Row t.phase t := by
  cases i with
  | nop => injection h with h; subst h; exact hr
  | init => injection h with h; subst h; exact init_row s
  | push b => have := (pushBody_inv h).1; rw [this] at hr; have := push_row h hr; rw [this.1]; exact this.2
  | pad => have := (padBody_inv h).1; rw [this] at hr; have := pad_row h hr; rw [this.1]; exact this.2
  | expand n => have := (expandBody_inv h).1; rw [this] at hr; exact (expand_row h hr).1
  | round n => 
    rcases (roundBody_inv h).1 with hq | hq <;> rw [hq] at hr
    · exact (round_row h (.inl ⟨hq, hr⟩)).1
    · exact (round_row h (.inr ⟨hq, hr⟩)).1
  | final => have := (finalBody_inv h).1; rw [this] at hr; have := final_row h hr; rw [this.1]; exact this.2
  | hash => 
    obtain ⟨p, e, c, hp, _⟩ := hashBody_inv h
    have := (padBody_inv hp).1; rw [this] at hr; have := hash_row h hr; rw [this.1]; exact this.2

end Sys2Proof.Machine
end

