-- ==== Sys2Proof/Laws/Step.lean ====
section
/-! SUPPORT. All a step can do when it answers a next state: the engine completes a word, the host or the reset input acts,
nothing happens, or the engine is held in reset. -/

namespace Sys2Proof.Machine

/-- The engine's turn: a completion, or nothing. -/
theorem engineTurn_next {s t : State} (h : engineTurn s = .next t) :
    (s.busy = true ∧ ∃ u, execWord s.pend s = .next u ∧ t = { u with busy := false }) ∨
    (s.busy = false ∧ t = s) := by
  unfold engineTurn at h
  split at h
  · exact .inl ⟨‹_›, clearBusy_next h⟩
  · injection h with h
    exact .inr ⟨by simpa using ‹¬s.busy = true›, h.symm⟩

/-- One step with rst_n = 1. -/
theorem runTurn_next {s t : State} (h : runTurn s = .next t) :
    (s.busy = true ∧ ∃ rest, rest <:+ s.moves ∧
      ∃ u, execWord s.pend { s with moves := rest } = .next u ∧ t = { u with busy := false }) ∨
    (t.moves <:+ s.moves ∧ t = { s with moves := t.moves, replies := t.replies, draws := t.draws }) ∨
    (s.busy = false ∧ t.moves <:+ s.moves ∧ t = { s with pend := t.pend, busy := true, moves := t.moves }) ∨
    (t.moves <:+ s.moves ∧ t = { s with rstN := true, moves := t.moves }) ∨
    (t.moves <:+ s.moves ∧ t = { resetEngine s with rstN := false, moves := t.moves }) := by
  have turn : ∀ {u : State} {rest : List Move}, rest <:+ s.moves → u = { s with moves := rest } →
      engineTurn u = .next t → 
      (s.busy = true ∧ ∃ rest, rest <:+ s.moves ∧
        ∃ u, execWord s.pend { s with moves := rest } = .next u ∧ t = { u with busy := false }) ∨
      (t.moves <:+ s.moves ∧ t = { s with moves := t.moves, replies := t.replies, draws := t.draws }) := by
    intro u rest hr hu ht
    subst hu
    rcases engineTurn_next ht with ⟨hb, v, hv, rfl⟩ | ⟨_, rfl⟩
    · exact .inl ⟨hb, rest, hr, v, hv, rfl⟩
    · exact .inr ⟨hr, rfl⟩
  unfold runTurn at h
  split at h
  · rename_i hm
    rcases turn (u := s) (List.suffix_refl _) rfl h with h | h
    · exact .inl h
    · exact .inr (.inl h)
  · rename_i rest hm
    rcases turn (by rw [hm]; exact List.suffix_cons _ _) rfl h with h | h
    · exact .inl h
    · exact .inr (.inl h)
  · rename_i level rest hm
    injection h with h
    have hs : rest <:+ s.moves := by rw [hm]; exact List.suffix_cons _ _
    subst h
    cases level
    · exact .inr (.inr (.inr (.inr ⟨hs, rfl⟩)))
    · exact .inr (.inr (.inr (.inl ⟨hs, rfl⟩)))
  · rename_i addr rest hm
    split at h
    · cases h
    · split at h
      · rcases turn (u := s) (List.suffix_refl _) rfl h with h | h
        · exact .inl h
        · exact .inr (.inl h)
      · injection h with h
        have hs : rest <:+ s.moves := by rw [hm]; exact List.suffix_cons _ _
        subst h
        exact .inr (.inl ⟨hs, rfl⟩)
  · rename_i addr v rest hm
    split at h
    · cases h
    · split at h
      · rcases turn (u := s) (List.suffix_refl _) rfl h with h | h
        · exact .inl h
        · exact .inr (.inl h)
      · rename_i hw
        injection h with h
        have hs : rest <:+ s.moves := by rw [hm]; exact List.suffix_cons _ _
        have hb : s.busy = false := by simpa [writeWaits] using hw
        subst h
        unfold hostWrite
        split
        · exact .inr (.inr (.inl ⟨hb, hs, rfl⟩))
        · exact .inr (.inl ⟨hs, rfl⟩)

/-- One step with rst_n = 0, on the held state. -/
theorem resetTurn_next {s t : State} (h : resetTurn s = .next t) :
    t.moves <:+ s.moves ∧ t = { s with rstN := t.rstN, moves := t.moves, replies := t.replies } := by
  unfold resetTurn at h
  split at h
  · injection h with h; subst h; exact ⟨List.suffix_refl _, rfl⟩
  · rename_i rest hm
    injection h with h; subst h; exact ⟨by rw [hm]; exact List.suffix_cons _ _, rfl⟩
  · rename_i level rest hm
    injection h with h; subst h; exact ⟨by rw [hm]; exact List.suffix_cons _ _, rfl⟩
  · rename_i addr rest hm
    split at h
    · cases h
    · injection h with h; subst h; exact ⟨by rw [hm]; exact List.suffix_cons _ _, rfl⟩
  · rename_i addr v rest hm
    split at h
    · cases h
    · injection h with h; subst h; exact ⟨by rw [hm]; exact List.suffix_cons _ _, rfl⟩

/-- All a step can do when it answers a next state. -/
theorem step_next {s t : State} (h : step s = .next t) :
    (s.rstN = true ∧ s.busy = true ∧ ∃ rest, rest <:+ s.moves ∧
      ∃ u, execWord s.pend { s with moves := rest } = .next u ∧ t = { u with busy := false }) ∨
    (s.rstN = true ∧ t.moves <:+ s.moves ∧
      t = { s with moves := t.moves, replies := t.replies, draws := t.draws }) ∨
    (s.rstN = true ∧ s.busy = false ∧ t.moves <:+ s.moves ∧
      t = { s with pend := t.pend, busy := true, moves := t.moves }) ∨
    (s.rstN = true ∧ t.moves <:+ s.moves ∧ t = { resetEngine s with rstN := false, moves := t.moves }) ∨
    (s.rstN = false ∧ t.moves <:+ s.moves ∧
      t = { resetEngine s with rstN := t.rstN, moves := t.moves, replies := t.replies }) := by
  unfold step at h
  split at h
  · rename_i hr
    rcases runTurn_next h with ⟨hb, r⟩ | r | ⟨hb, r⟩ | ⟨hm, r⟩ | r
    · exact .inl ⟨hr, hb, r⟩
    · exact .inr (.inl ⟨hr, r⟩)
    · exact .inr (.inr (.inl ⟨hr, hb, r⟩))
    · refine .inr (.inl ⟨hr, hm, ?_⟩)
      rw [r, ← hr]
    · exact .inr (.inr (.inr (.inl ⟨hr, r⟩)))
  · rename_i hr
    exact .inr (.inr (.inr (.inr ⟨by simpa using hr, resetTurn_next h⟩)))

/-- All a step can do with a command in flight: complete it, take a move that keeps it, or take rst_n to 0. -/
theorem step_busy {s t : State} (hr : s.rstN = true) (hb : s.busy = true) (h : step s = .next t) :
    (∃ rest, complete { s with moves := rest } = .next t) ∨
    (∃ mv, s.moves = mv :: t.moves ∧ t = { s with moves := t.moves, replies := t.replies, draws := t.draws }) ∨
    (∃ rest, s.moves = .rstN false :: rest ∧ t.busy = false) := by
  have turn : ∀ {rest : List Move}, engineTurn { s with moves := rest } = .next t →
      ∃ rest, complete { s with moves := rest } = .next t := by
    intro rest ht
    rw [engineTurn, if_pos hb] at ht
    exact ⟨rest, ht⟩
  rw [step, if_pos hr] at h
  unfold runTurn at h
  split at h
  · exact .inl (turn (rest := s.moves) h)
  · exact .inl (turn h)
  · rename_i level rest hm
    injection h with h
    subst h
    cases level
    · exact .inr (.inr ⟨rest, hm, rfl⟩)
    · exact .inr (.inl ⟨_, hm, by simp [setRstN, hr]⟩)
  · rename_i addr rest hm
    split at h
    · cases h
    · split at h
      · exact .inl (turn (rest := s.moves) h)
      · injection h with h
        subst h
        exact .inr (.inl ⟨_, hm, rfl⟩)
  · split at h
    · cases h
    · rw [if_pos (by exact hb)] at h
      exact .inl (turn (rest := s.moves) h)

end Sys2Proof.Machine
end

