-- ==== Sys2Proof/Tests/Slice0.lean ====
section
/-! SUPPORT. The model's own tests. Every expected value is one the spec prints (spec/95_test_vectors.md, the vector is
named), none is the model's answer. After them, for each statement with hypotheses, a state and operands that meet all of
them. -/

open Sys2Proof Sys2Proof.Machine

namespace Sys2Proof.Tests

set_option Elab.async false

/-! Well-formedness (R114): an ill-formed word for each check -/

/-- V-CTL-5: opcode 0x08. -/
theorem test_ill_formed_opcode :
    opcodeKnown 0x08000000#32 = false ∧ wellFormed 0x08000000#32 = false := by decide +kernel

/-- V-PRE-10: RSV = 1. -/
theorem test_ill_formed_reserved :
    reservedZero 0x02000100#32 = false ∧ wellFormed 0x02000100#32 = false := by decide +kernel

/-- V-PRE-9: PAD with ARG = 1. -/
theorem test_ill_formed_arg :
    argAllowed 0x03000001#32 = false ∧ wellFormed 0x03000001#32 = false := by decide +kernel

/-- R113: one word of each row, ARG at large values. -/
theorem test_well_formed_words :
    [0x00000000#32, 0x01000000#32, 0x020000FF#32, 0x03000000#32, 0x040000C8#32, 0x05000041#32, 0x06000000#32,
      0x07000000#32].all wellFormed = true := by decide +kernel

/-! Decoding: words written out from R111 and R113 -/

/-- R113. -/
theorem test_decode_nop :
    decode 0b00000000_0000000000000000_00000000#32 = .ok .nop := by decide +kernel

/-- R113. -/
theorem test_decode_init :
    decode 0b00000001_0000000000000000_00000000#32 = .ok .init := by decide +kernel

/-- R113. -/
theorem test_decode_pad :
    decode 0b00000011_0000000000000000_00000000#32 = .ok .pad := by decide +kernel

/-- R113. -/
theorem test_decode_final :
    decode 0b00000110_0000000000000000_00000000#32 = .ok .final := by decide +kernel

/-- R113. -/
theorem test_decode_hash :
    decode 0b00000111_0000000000000000_00000000#32 = .ok .hash := by decide +kernel

/-- V-PRE-7: 0x02000061. -/
theorem test_decode_push :
    decode 0b00000010_0000000000000000_01100001#32 = .ok (.push 0x61#8) := by decide +kernel

/-- V-SCH-7: 0x04000031. -/
theorem test_decode_expand :
    decode 0b00000100_0000000000000000_00110001#32 = .ok (.expand 49#8) := by decide +kernel

/-- V-CMP-8: 0x05000041. -/
theorem test_decode_round :
    decode 0b00000101_0000000000000000_01000001#32 = .ok (.round 65#8) := by decide +kernel

/-- V-CTL-5 to V-CTL-9, R115. -/
theorem test_decode_illegal :
    decode 0x08000000#32 = .error .unknownOpcode ∧ decode 0xFF000000#32 = .error .unknownOpcode ∧
    decode 0x00000001#32 = .error .argNotZero ∧ decode 0x01000001#32 = .error .argNotZero ∧
    decode 0x07000100#32 = .error .reservedNotZero := by decide +kernel

/-- P4. -/
theorem test_table_words :
    decodeTableWord 32 0x05000020 = some (.round 32#8) ∧ decodeTableWord 32 0x08000000 = none := by decide +kernel

/-! Primitives (95_test_vectors.md 3.1) -/

/-- V-PRIM-1, 2, 4, 5, 6. -/
theorem test_add_and_logic :
    (0x6a09e667#32 + 0x5d6aebcd#32 = 0xc774d234#32) ∧ (0xFFFFFFFF#32 + 0x00000001#32 = 0x00000000#32) ∧
    (0xF0F0F0F0#32 ^^^ 0xFF00FF00#32 = 0x0FF00FF0#32) ∧ (0xF0F0F0F0#32 &&& 0xFF00FF00#32 = 0xF000F000#32) ∧
    (~~~0x510e527f#32 = 0xaef1ad80#32) := by decide +kernel

/-- V-PRIM-7, 8, 10, 11, 12, V-SRC-7. -/
theorem test_shift_and_rotate :
    shr 0x80000000#32 3 = 0x10000000#32 ∧ shr 0xFFFFFFFF#32 10 = 0x003fffff#32 ∧
    rotr 0x80000001#32 1 = 0xc0000000#32 ∧ rotr 0x12345678#32 8 = 0x78123456#32 ∧ rotr 0x12345678#32 0 = 0x12345678#32 ∧
    rotr 0x12345678#32 31 = 0x2468acf0#32 := by decide +kernel

/-- V-PRIM-15, 16, 17, 18. -/
theorem test_upperS0 :
    [0x00000001#32, 0x80000000#32, 0x6a09e667#32, 0x12345678#32].map upperS0 =
      [0x40080400#32, 0x20040200#32, 0xce20b47e#32, 0x66146474#32] := by decide +kernel

/-- V-PRIM-22, 23, 26, 25. -/
theorem test_upperS1 :
    [0x00000001#32, 0x80000000#32, 0x6a09e667#32, 0x12345678#32].map upperS1 =
      [0x04200080#32, 0x02100040#32, 0x55b65510#32, 0x3561abda#32] := by decide +kernel

/-- V-PRIM-29, 30, 32, 31. -/
theorem test_lowerS0 :
    [0x00000001#32, 0x80000000#32, 0x6a09e667#32, 0x12345678#32].map lowerS0 =
      [0x02004000#32, 0x11002000#32, 0xba0cf582#32, 0xe7fce6ee#32] := by decide +kernel

/-- V-PRIM-36, 37, 39, 38. -/
theorem test_lowerS1 :
    [0x00000001#32, 0x80000000#32, 0x6a09e667#32, 0x12345678#32].map lowerS1 =
      [0x0000a000#32, 0x00205000#32, 0xcfe5da3c#32, 0xa1f78649#32] := by decide +kernel

/-- V-PRIM-41, 44, 45, 47. -/
theorem test_ch_and_maj :
    ch 0xF0F0F0F0#32 0x12345678#32 0x9abcdef0#32 = 0x1a3c5e70#32 ∧ ch 0x510e527f#32 0x9b05688c#32 0x1f83d9ab#32 = 0x1f85c98c#32 ∧
    maj 0xF0F0F0F0#32 0xFF00FF00#32 0x0F0F0F0F#32 = 0xff00ff00#32 ∧ maj 0x6a09e667#32 0xbb67ae85#32 0x3c6ef372#32 = 0x3a6fe667#32 := by decide +kernel

/-! Constants (95_test_vectors.md 1 and 3.2) -/

/-- V-SRC-4. -/
theorem test_primes :
    primes 16 = [2, 3, 5, 7, 11, 13, 17, 19, 23, 29, 31, 37, 41, 43, 47, 53] := by decide +kernel

/-- V-SRC-2, V-AUDIT-1. -/
theorem test_iv_rule :
    (primes 8).map ivOfPrime = ivRom.toList := by decide +kernel

/-- V-SRC-3, V-AUDIT-1. -/
theorem test_k_rule :
    (primes 64).map kOfPrime = kList := by decide +kernel

/-- V-CONST-3, 4, 5. -/
theorem test_k_rom :
    kList.length = 64 ∧ kAt 0 = 0x428a2f98#32 ∧ kAt 16 = 0xe49b69c1#32 ∧ kAt 63 = 0xc67178f2#32 := by decide +kernel

/-! Small states -/

/-- The state an outcome answers. -/
def answer (o : Host.Outcome State Fault Refusal) : Option State :=
  match o with
  | .next t => some t
  | .fault _ => none
  | .refused _ => none

/-- STATUS, COUNT, MSGLEN and ERRCMD as the host reads them. -/
def record (s : State) : Word × Word × Word × Word :=
  (readReg false s .status, readReg false s .count, readReg false s .msglen, readReg false s .errcmd)

/-- LOAD with the message "abc". -/
def loadAbc : State :=
  { initState State.reset with
    msglen := 3#6
    blk := (((Vector.replicate 64 0x00#8).setIfInBounds 0 0x61#8).setIfInBounds 1 0x62#8).setIfInBounds 2 0x63#8 }

/-- LOAD with "a" n times. -/
def loadAs (n : Nat) : State :=
  { initState State.reset with
    msglen := BitVec.ofNat 6 n
    blk := Vector.ofFn fun j : Fin 64 => if j.val < n then 0x61#8 else 0x00#8 }

/-- PADDED after "abc". -/
def paddedAbc : State := (answer (exec .pad loadAbc)).getD State.reset

/-- EXPANDED after "abc". -/
def expandedAbc : State := (answer (exec (.expand 0#8) paddedAbc)).getD State.reset

/-- COMPRESS after "abc" and one round: WV is row 0 of V-CMP-1. -/
def compressAbc : State :=
  { expandedAbc with
    phase := .compress
    rcnt := 1#7
    wv := ⟨0x5d6aebcd#32, 0x6a09e667#32, 0xbb67ae85#32, 0x3c6ef372#32, 0xfa2a4622#32, 0x510e527f#32, 0x9b05688c#32, 0x1f83d9ab#32⟩ }

/-- COMPRESSED after "abc": WV is row 63 of V-CMP-1. -/
def compressedAbc : State :=
  { expandedAbc with
    phase := .compressed
    rcnt := 64#7
    wv := ⟨0x506e3058#32, 0xd39a2165#32, 0x04d24d6c#32, 0xb85e2ce9#32, 0x5ef50f24#32, 0xfb121210#32, 0x948d25b6#32, 0x961f4894#32⟩ }

/-- DONE after "abc": V-FIN-1. -/
def doneAbc : State :=
  { compressedAbc with
    phase := .done
    h := #v[0xba7816bf#32, 0x8f01cfea#32, 0x414140de#32, 0x5dae2223#32, 0xb00361a3#32, 0x96177a9c#32, 0xb410ff61#32, 0xf20015ad#32] }

/-- ERROR after a PUSH in IDLE: V-PRE-7. -/
def errorIdle : State := raiseError .sequence 0x02000061#32 State.reset

/-! The commands, one step each (95_test_vectors.md 3.3 to 3.7) -/

/-- V-CTL-3, V-CTL-13. -/
theorem test_nop :
    [loadAbc, errorIdle].all (fun s => answer (exec .nop s) == some s) = true := by decide +kernel

/-- V-CTL-4. -/
theorem test_init_from_done :
    (answer (exec .init doneAbc)).map record = some (0x00000001#32, 0#32, 0#32, 0#32) ∧
    (answer (exec .init doneAbc)).map (fun t => (t.h, t.w.toList.all (· == 0#32), hexReg false t 0)) =
      some (ivRom, true, 0#32) := by decide +kernel

/-- V-CTL-14. -/
theorem test_init_from_error :
    (answer (exec .init errorIdle)).map record = some (0x00000001#32, 0#32, 0#32, 0#32) := by decide +kernel

/-- R191 on "aa": the byte goes to BLK[2]. -/
theorem test_push_third_byte :
    (answer (exec (.push 0x63#8) (loadAs 2))).map (fun t => (record t, blockWord t.blk 0)) =
      some ((0x00000001#32, 0#32, 3#32, 0#32), 0x61616300#32) := by decide +kernel

/-- V-PRE-6. -/
theorem test_push_too_long :
    (answer (exec (.push 0x61#8) (loadAs 55))).map (fun t => (record t, blockWord t.blk 13)) =
      some ((0x00000037#32, 0#32, 55#32, 0x02000061#32), 0x61616100#32) := by decide +kernel

/-- V-PRE-3. -/
theorem test_pad_abc :
    (answer (exec .pad loadAbc)).map (fun t => (record t, t.wAt 0, t.wAt 1, t.wAt 14, t.wAt 15, blockWord t.blk 0)) =
      some ((0x00000002#32, 0x00000010#32, 3#32, 0#32), 0x61626380#32, 0#32, 0#32, 0x00000018#32, 0x61626380#32) := by decide +kernel

/-- V-PRE-4. -/
theorem test_pad_longest :
    (answer (exec .pad (loadAs 55))).map (fun t => (t.wAt 12, t.wAt 13, t.wAt 14, t.wAt 15)) =
      some (0x61616161#32, 0x61616180#32, 0#32, 0x000001b8#32) := by decide +kernel

/-- V-SCH-1, V-SCH-5. -/
theorem test_expand_all :
    (answer (exec (.expand 48#8) paddedAbc)).map (fun t => (record t, t.w.toList.drop 48)) =
      some ((0x00000003#32, 0x00000040#32, 3#32, 0#32),
        [0xfb3e89cb#32, 0xcc7617db#32, 0xb9e66c34#32, 0xa9993667#32, 0x84badedd#32, 0xc21462bc#32, 0x1487472c#32, 0xb20f7a99#32,
         0xef57b9cd#32, 0xebe6b238#32, 0x9fe3095e#32, 0x78bc8d4b#32, 0xa43fcf15#32, 0x668b2ff8#32, 0xeeaba2cc#32, 0x12b1edeb#32]) := by decide +kernel

/-- V-SCH-7. -/
theorem test_expand_too_many :
    (answer (exec (.expand 49#8) paddedAbc)).map (fun t => (record t, t.wAt 16)) =
      some ((0x00000057#32, 0x00000010#32, 3#32, 0x04000031#32), 0#32) := by decide +kernel

/-- V-CMP-3. -/
theorem test_round_first :
    (answer (exec (.round 1#8) expandedAbc)).map (fun t => (record t, t.wv)) =
      some ((0x00000004#32, 0x00000140#32, 3#32, 0#32),
        ⟨0x5d6aebcd#32, 0x6a09e667#32, 0xbb67ae85#32, 0x3c6ef372#32, 0xfa2a4622#32, 0x510e527f#32, 0x9b05688c#32, 0x1f83d9ab#32⟩) := by decide +kernel

/-- V-CMP-4. -/
theorem test_round_rest :
    (answer (exec (.round 0#8) compressAbc)).map (fun t => (record t, t.wv)) =
      some ((0x00000005#32, 0x00004040#32, 3#32, 0#32),
        ⟨0x506e3058#32, 0xd39a2165#32, 0x04d24d6c#32, 0xb85e2ce9#32, 0x5ef50f24#32, 0xfb121210#32, 0x948d25b6#32, 0x961f4894#32⟩) := by decide +kernel

/-- V-FIN-1. -/
theorem test_final :
    (answer (exec .final compressedAbc)).map (fun t => (readReg false t .status, t.h)) =
      some (0x00000006#32, #v[0xba7816bf#32, 0x8f01cfea#32, 0x414140de#32, 0x5dae2223#32, 0xb00361a3#32, 0x96177a9c#32, 0xb410ff61#32, 0xf20015ad#32]) := by decide +kernel

/-- V-FIN-9. -/
theorem test_final_again :
    (answer (exec .final doneAbc)).map (fun t => (readReg false t .status, t.h, hexReg false t 0)) =
      some (0x00000027#32, doneAbc.h, 0#32) := by decide +kernel

/-- V-CTL-15. -/
theorem test_hash_abc :
    (answer (exec .hash loadAbc)).map (fun t => (record t, t.h, t.wv, t.wAt 63)) =
      some ((0x00000006#32, 0x00004040#32, 3#32, 0#32),
        #v[0xba7816bf#32, 0x8f01cfea#32, 0x414140de#32, 0x5dae2223#32, 0xb00361a3#32, 0x96177a9c#32, 0xb410ff61#32, 0xf20015ad#32],
        ⟨0x506e3058#32, 0xd39a2165#32, 0x04d24d6c#32, 0xb85e2ce9#32, 0x5ef50f24#32, 0xfb121210#32, 0x948d25b6#32, 0x961f4894#32⟩, 0x12b1edeb#32) := by decide +kernel

/-- V-FIN-12. -/
theorem test_hash_a :
    (answer (exec .hash (loadAs 1))).map (·.h) =
      some #v[0xca978112#32, 0xca1bbdca#32, 0xfac231b3#32, 0x9a23dc4d#32, 0xa786eff8#32, 0x147c4e72#32, 0xb9807785#32, 0xafee48bb#32] := by decide +kernel

/-- V-CTL-12. -/
theorem test_hash_sequence :
    (answer (exec .hash doneAbc)).map (fun t => (record t, t.h)) =
      some ((0x00000027#32, 0x00004040#32, 3#32, 0x07000000#32), doneAbc.h) := by decide +kernel

/-- V-CTL-10. -/
theorem test_illegal_before_sequence :
    (answer (execWord 0x03000001#32 doneAbc)).map record =
      some (0x00000017#32, 0x00004040#32, 3#32, 0x03000001#32) := by decide +kernel

/-- V-CTL-13. -/
theorem test_error_ignores :
    [0x00000000#32, 0x08000000#32, 0x01000001#32, 0x02000061#32, 0x07000000#32].all
      (fun c => answer (execWord c errorIdle) == some errorIdle) = true := by decide +kernel

/-! The bus, the digest's text, reset and the steps -/

/-- V-FIN-3. -/
theorem test_hex_lower :
    (List.range 16).map (hexReg false doneAbc) =
      [0x62613738#32, 0x31366266#32, 0x38663031#32, 0x63666561#32, 0x34313431#32, 0x34306465#32, 0x35646165#32, 0x32323233#32, 0x62303033#32, 0x36316133#32, 0x39363137#32, 0x37613963#32, 0x62343130#32, 0x66663631#32, 0x66323030#32, 0x31356164#32] := by decide +kernel

/-- V-FIN-4. -/
theorem test_hex_upper :
    (List.range 16).map (hexReg true doneAbc) =
      [0x42413738#32, 0x31364246#32, 0x38463031#32, 0x43464541#32, 0x34313431#32, 0x34304445#32, 0x35444145#32, 0x32323233#32, 0x42303033#32, 0x36314133#32, 0x39363137#32, 0x37413943#32, 0x42343130#32, 0x46463631#32, 0x46323030#32, 0x31354144#32] := by decide +kernel

/-- V-FIN-7. -/
theorem test_hex_gated :
    hexReg false compressedAbc 0 = 0#32 := by decide +kernel

/-- V-CONST-1, 2, 4, 5. -/
theorem test_rom_reads :
    readReg false State.reset (regOf 0x060#12) = 0x6a09e667#32 ∧ readReg false State.reset (regOf 0x07C#12) = 0x5be0cd19#32 ∧
    readReg false State.reset (regOf 0x240#12) = 0xe49b69c1#32 ∧ readReg false State.reset (regOf 0x2FC#12) = 0xc67178f2#32 := by decide +kernel

/-- V-BUS-1, V-BUS-2. -/
theorem test_reserved_reads :
    [0x000#12, 0x014#12, 0x01C#12, 0x300#12, 0xFFC#12].all (fun a => readReg false doneAbc (regOf a) == 0#32) = true := by decide +kernel

/-- R89 on "abc", 95_test_vectors.md 3.3. -/
theorem test_block_read :
    readReg false loadAbc (regOf 0x080#12) = 0x61626300#32 := by decide +kernel

/-- V-BUS-3. -/
theorem test_write_to_h :
    answer (step { loadAbc with moves := [.write 0x020#12 0x12345678#32] }) = some loadAbc := by decide +kernel

/-- V-BUS-7: the command completes first. -/
theorem test_busy_read_waits :
    (answer (step { loadAbc with busy := true, pend := 0x07000000#32, moves := [.read 0x020#12] })).map
      (fun t => (t.busy, t.moves, t.replies, t.phase)) = some (false, [.read 0x020#12], [], .done) := by decide +kernel

/-- V-BUS-8. -/
theorem test_reset_abandons :
    (answer (step { loadAbc with busy := true, pend := 0x07000000#32, moves := [.rstN false] })).map
      (fun t => (record t, t.hAt 0, t.busy)) = some ((0#32, 0#32, 0#32, 0#32), 0#32, false) := by decide +kernel

/-- V-BUS-9. -/
theorem test_read_in_reset :
    (answer (step { State.reset with rstN := false, moves := [.read 0x060#12] })).map (·.replies) =
      some [⟨0x060#12, 0#32⟩] := by decide +kernel

/-- V-CTL-1. -/
theorem test_reset_record :
    record State.reset = (0#32, 0#32, 0#32, 0#32) := by decide +kernel

/-- V-CTL-2, through step. -/
theorem test_placed_word_runs :
    (answer (step (State.reset.withFetchWord 32 0x01000000))).map (fun t => (record t, t.h)) =
      some ((0x00000001#32, 0#32, 0#32, 0#32), ivRom) := by decide +kernel

/-- V-CTL-11, through step. -/
theorem test_placed_hash_in_idle :
    (answer (step (State.reset.withFetchWord 32 0x07000000))).map record =
      some (0x00000027#32, 0#32, 0#32, 0x07000000#32) := by decide +kernel

/-! The assembler (R118, R119) -/

/-- P1. -/
theorem test_asm_push :
    assembleLine "PUSH 'a' ; first".toList = .ok [.wr 0x000#12 0x02000061#32] ∧
    assembleLine "PUSH 0x61".toList = .ok [.wr 0x000#12 0x02000061#32] := by decide +kernel

/-- R118. -/
theorem test_asm_errors :
    assembleLine "PUSH 256".toList = .error (.outOfRange 256) ∧ assembleLine "POP".toList = .error .syntaxError := by decide +kernel

/-- R119. -/
theorem test_asm_pseudo :
    assembleLine "STEP".toList = .ok [.wr 0x000#12 0x05000001#32] ∧
    assembleLine "DIGEST \"ab\"".toList =
      .ok [.wr 0x000#12 0x01000000#32, .wr 0x000#12 0x02000061#32, .wr 0x000#12 0x02000062#32, .wr 0x000#12 0x07000000#32] := by decide +kernel

/-- V-BUS-4, P1. -/
theorem test_asm_bus :
    assembleLine "WR 0x300, 0xFFFFFFFF".toList = .ok [.wr 0x300#12 0xFFFFFFFF#32] ∧
    assembleLine "RD 0x004".toList = .ok [.rd 0x004#12] ∧ assembleLine "POLL".toList = .ok [.poll] := by decide +kernel

/-! Witnesses: for each statement with hypotheses, states and operands that meet all of them, at the ends of a range where
one is given -/

/-- A word in flight in LOAD with "abc" pushed, and what the host does next. -/
def inFlight (c : Word) (moves : List Move) : State := { loadAbc with busy := true, pend := c, moves := moves }

/-- Nothing in flight in LOAD with "abc" pushed, and what the host does next. -/
def atRest (moves : List Move) : State := { loadAbc with moves := moves }

theorem row_load_abc (c : Word) (b : Bool) (moves : List Move) :
    Row .load { loadAbc with pend := c, busy := b, moves := moves } := by
  refine ⟨(by decide +kernel : loadAbc.msglen.toNat ≤ 55), rfl, rfl, rfl, ?_, rfl, rfl⟩
  have h : ∀ j : Fin 64, 3 ≤ j.val → loadAbc.blkAt j.val = 0#8 := by decide +kernel
  exact fun j h1 h2 => h ⟨j, h2⟩ h1

theorem phaseInv_abc (c : Word) (b : Bool) (moves : List Move) :
    PhaseInv { loadAbc with pend := c, busy := b, moves := moves } :=
  ⟨⟨.load, .inl rfl, row_load_abc c b moves⟩, ⟨fun h => absurd rfl h, fun h => by cases h⟩, fun _ => rfl,
    (by decide +kernel : loadAbc.err ≠ .paddingInvariant ∧ loadAbc.err ≠ .primeSearchExhausted), fun h => by cases h⟩

theorem dataInv_abc (c : Word) (b : Bool) (moves : List Move) :
    DataInv { loadAbc with pend := c, busy := b, moves := moves } := by
  refine ⟨phaseInv_abc c b moves, fun h => absurd rfl h, ?_, rfl⟩
  have h : ∀ i : Fin 64, loadAbc.wAt i.val = 0#32 := by decide +kernel
  exact fun i hi => h ⟨i, hi⟩

theorem phaseInv_done : PhaseInv doneAbc :=
  ⟨⟨.done, .inl rfl, by decide +kernel, by decide +kernel, rfl, by decide +kernel⟩,
    ⟨fun h => absurd (by decide +kernel) h, fun h => by cases h⟩, fun _ => by decide +kernel,
    ⟨by decide +kernel, by decide +kernel⟩, fun h => absurd h (by decide +kernel)⟩

theorem witness_DecodeEncodeAgree : decode 0x02000061#32 = .ok (.push 0x61#8) := by decide +kernel

theorem witness_WellFormedIffSelectsRow :
    wellFormed 0x04000030#32 = true ∧ wellFormed 0x04000130#32 = false := by decide +kernel

theorem witness_DecoderFollowsOpcode :
    wellFormed 0x08000000#32 = false ∧ wellFormed 0x07000000#32 = true ∧ wellFormed 0x050000FF#32 = true := by
  decide +kernel

theorem witness_StepRunsDecodedCommand_last :
    (inFlight 0x07000000#32 []).rstN = true ∧ (inFlight 0x07000000#32 []).busy = true ∧
    EngineHasTurn (inFlight 0x07000000#32 []) [] ∧ decode (inFlight 0x07000000#32 []).pend = .ok .hash :=
  ⟨rfl, rfl, .inl ⟨rfl, rfl⟩, by decide +kernel⟩

theorem witness_StepRunsDecodedCommand_yield :
    (inFlight 0x08000000#32 [.engine]).rstN = true ∧ (inFlight 0x08000000#32 [.engine]).busy = true ∧
    EngineHasTurn (inFlight 0x08000000#32 [.engine]) [] ∧
    decode (inFlight 0x08000000#32 [.engine]).pend = .error .unknownOpcode :=
  ⟨rfl, rfl, .inr (.inl rfl), by decide +kernel⟩

theorem witness_StepRunsDecodedCommand_read :
    EngineHasTurn (inFlight 0x03000000#32 [.read 0x020#12]) [.read 0x020#12] ∧
    decode (inFlight 0x03000000#32 [.read 0x020#12]).pend = .ok .pad :=
  ⟨.inr (.inr (.inl ⟨rfl, _, _, rfl, by decide +kernel, by decide +kernel⟩)), by decide +kernel⟩

theorem witness_StepRunsDecodedCommand_write :
    EngineHasTurn (inFlight 0x03000000#32 [.write 0x000#12 0#32]) [.write 0x000#12 0#32] ∧
    decode (inFlight 0x03000000#32 [.write 0x000#12 0#32]).pend = .ok .pad :=
  ⟨.inr (.inr (.inr ⟨rfl, _, _, _, rfl, by decide +kernel⟩)), by decide +kernel⟩

theorem witness_WriteToCmdIssuesTheWord :
    (atRest [.write 0x000#12 0xFFFFFFFF#32]).rstN = true ∧ (atRest [.write 0x000#12 0xFFFFFFFF#32]).busy = false ∧
    (atRest [.write 0x000#12 0xFFFFFFFF#32]).moves = .write 0x000#12 0xFFFFFFFF#32 :: [] := ⟨rfl, rfl, rfl⟩

theorem witness_WriteElsewhereHasNoEffect :
    ∀ a ∈ [0x004#12, 0x020#12, 0x014#12, 0x300#12, 0xFFC#12],
      (atRest [.write a 0#32]).rstN = true ∧ (atRest [.write a 0#32]).busy = false ∧
      (atRest [.write a 0#32]).moves = .write a 0#32 :: [] ∧ misaligned a = false ∧ a ≠ 0x000#12 := by
  intro a ha
  refine ⟨rfl, rfl, rfl, ?_⟩
  revert a; decide +kernel

theorem aligned_status (c : Word) : Aligned (inFlight c [.read 0x004#12, .write 0x000#12 0#32]) := by
  intro mv h
  simp only [inFlight, List.mem_cons, List.not_mem_nil, or_false] at h
  rcases h with rfl | rfl <;> decide +kernel

theorem witness_BusyCommandCompletes_no_reset :
    Move.rstN false ∉ (inFlight 0x07000000#32 [.read 0x004#12, .write 0x000#12 0#32]).moves := by decide +kernel

theorem witness_BusyCommandCompletes :
    PhaseInv (inFlight 0x07000000#32 [.read 0x004#12, .write 0x000#12 0#32]) ∧
    Aligned (inFlight 0x07000000#32 [.read 0x004#12, .write 0x000#12 0#32]) ∧
    (inFlight 0x07000000#32 [.read 0x004#12, .write 0x000#12 0#32]).rstN = true ∧
    (inFlight 0x07000000#32 [.read 0x004#12, .write 0x000#12 0#32]).busy = true :=
  ⟨phaseInv_abc _ _ _, aligned_status _, rfl, rfl⟩

theorem witness_PushAppendsOneByte :
    ((loadAs 0).phase = .load ∧ (loadAs 0).msglen.toNat < 55) ∧
    ((loadAs 54).phase = .load ∧ (loadAs 54).msglen.toNat < 55) := by decide +kernel

theorem witness_PushAppendsOneByte_stops :
    ((loadAs 55).phase = .load ∧ (loadAs 55).msglen = 55#6) ∧
    (doneAbc.phase ≠ .load ∧ doneAbc.phase ≠ .error) ∧ errorIdle.phase = .error := by decide +kernel

theorem witness_PushesBuildTheMessage :
    (loadAs 53).phase = .load ∧ (loadAs 53).msglen.toNat + [0x62#8, 0x63#8].length ≤ 55 := by decide +kernel

theorem witness_PadFormsBlockAndSchedule :
    ((loadAs 0).phase = .load ∧ (loadAs 0).msglen.toNat ≤ 55) ∧
    ((loadAs 55).phase = .load ∧ (loadAs 55).msglen.toNat ≤ 55) ∧
    (paddedAbc.phase ≠ .load ∧ paddedAbc.phase ≠ .error) := by decide +kernel

theorem witness_PaddedBlockLayout :
    loadAbc.phase = .load ∧ loadAbc.msglen.toNat ≤ 55 ∧ ∃ t, exec .pad loadAbc = .next t :=
  ⟨rfl, by decide +kernel, _, rfl⟩

theorem witness_PaddingCheckNeverFails :
    (loadAs 55).msglen.toNat ≤ 55 ∧ (loadAs 55).err ≠ .paddingInvariant ∧ ∃ t, exec .pad (loadAs 55) = .next t :=
  ⟨by decide +kernel, by decide +kernel, _, rfl⟩

/-- PADDED with 63 schedule words. -/
def lastWordAbc : State := { paddedAbc with scnt := 63#7 }

theorem witness_ExpandComputesScheduleWords :
    (paddedAbc.phase = .padded ∧ 16 ≤ paddedAbc.scnt.toNat ∧ paddedAbc.scnt.toNat ≤ 63 ∧
      (48#8).toNat ≤ 64 - paddedAbc.scnt.toNat ∧ (0#8).toNat ≤ 64 - paddedAbc.scnt.toNat) ∧
    (lastWordAbc.phase = .padded ∧ 16 ≤ lastWordAbc.scnt.toNat ∧ lastWordAbc.scnt.toNat ≤ 63 ∧
      (1#8).toNat ≤ 64 - lastWordAbc.scnt.toNat) := by decide +kernel

theorem witness_ExpandSplitsAgree :
    paddedAbc.phase = .padded ∧ 16 ≤ paddedAbc.scnt.toNat ∧ paddedAbc.scnt.toNat ≤ 63 ∧ 47#8 ≠ 0#8 ∧ 1#8 ≠ 0#8 ∧
    (47#8).toNat < 64 - paddedAbc.scnt.toNat ∧ (48#8).toNat = (47#8).toNat + (1#8).toNat ∧
    (48#8).toNat ≤ 64 - paddedAbc.scnt.toNat := by decide +kernel

/-- PADDED with 15 schedule words, which no run reaches. -/
def unloadedAbc : State := { paddedAbc with scnt := 15#7 }

theorem witness_ExpandBelowSixteenFaults :
    unloadedAbc.phase = .padded ∧ unloadedAbc.scnt.toNat < 16 ∧ (49#8).toNat ≤ 64 - unloadedAbc.scnt.toNat := by
  decide +kernel

/-- COMPRESS with n rounds left. -/
def roundsLeft (n : Nat) : State := { compressAbc with rcnt := BitVec.ofNat 7 (64 - n) }

theorem witness_OneRoundUpdatesWorkingState :
    (compressAbc.phase = .compress ∧ compressAbc.rcnt.toNat ≤ 63) ∧
    ((roundsLeft 1).phase = .compress ∧ (roundsLeft 1).rcnt.toNat = 63) := by decide +kernel

theorem witness_RoundRunsTheRounds :
    ((expandedAbc.phase = .expanded ∨ expandedAbc.phase = .compress) ∧ expandedAbc.rcnt.toNat ≤ 63 ∧
      (64#8).toNat ≤ 64 - expandedAbc.rcnt.toNat) ∧
    (((roundsLeft 1).phase = .expanded ∨ (roundsLeft 1).phase = .compress) ∧ (roundsLeft 1).rcnt.toNat ≤ 63 ∧
      (1#8).toNat ≤ 64 - (roundsLeft 1).rcnt.toNat) := by decide +kernel

theorem witness_RoundSplitsAgree :
    (expandedAbc.phase = .expanded ∨ expandedAbc.phase = .compress) ∧ expandedAbc.rcnt.toNat ≤ 63 ∧ 63#8 ≠ 0#8 ∧
    1#8 ≠ 0#8 ∧ (63#8).toNat < 64 - expandedAbc.rcnt.toNat ∧ (64#8).toNat = (63#8).toNat + (1#8).toNat ∧
    (64#8).toNat ≤ 64 - expandedAbc.rcnt.toNat := by decide +kernel

theorem witness_CountAboveRemainingIsRefused :
    (paddedAbc.phase = .padded ∧ 64 - paddedAbc.scnt.toNat < (49#8).toNat) ∧
    ((expandedAbc.phase = .expanded ∨ expandedAbc.phase = .compress) ∧ 64 - expandedAbc.rcnt.toNat < (65#8).toNat) ∧
    (((roundsLeft 1).phase = .expanded ∨ (roundsLeft 1).phase = .compress) ∧
      64 - (roundsLeft 1).rcnt.toNat < (2#8).toNat) := by decide +kernel

theorem witness_FinalFoldsWorkingState :
    compressedAbc.phase = .compressed ∧ compressAbc.phase ≠ .compressed ∧ compressAbc.phase ≠ .error := by decide +kernel

theorem witness_HashIsThePipeline :
    (loadAbc.phase = .load ∧ loadAbc.msglen.toNat ≤ 55 ∧ loadAbc.rcnt = 0#7) ∧
    (doneAbc.phase ≠ .load ∧ doneAbc.phase ≠ .error) := by decide +kernel

theorem witness_HashComputesTheDigest :
    (loadAs 55).phase = .load ∧ (loadAs 55).msglen.toNat ≤ 55 ∧ (loadAs 55).rcnt = 0#7 ∧ (loadAs 55).h = ivRom :=
  ⟨rfl, by decide +kernel, rfl, rfl⟩

/-- A host that hashes "abc" (P1's message), the engine found in ERROR. -/
def bootAbc : State :=
  { errorIdle with
    moves := [.write 0x000#12 0x01000000#32, .write 0x000#12 0x02000061#32, .write 0x000#12 0x02000062#32,
      .write 0x000#12 0x02000063#32, .write 0x000#12 0x07000000#32] }

theorem witness_BootSequenceHashesAnyMessage :
    [0x61#8, 0x62#8, 0x63#8].length ≤ 55 ∧ bootAbc.rstN = true ∧ bootAbc.busy = false ∧
    bootAbc.moves = (0x01000000#32 :: ([0x61#8, 0x62#8, 0x63#8].map fun b => (0x02#8 ++ 0#16 ++ b : Word)) ++
      [0x07000000#32]).map (Move.write 0x000#12) := by decide +kernel

/-- A host that hashes the empty message, and one that hashes "a" 55 times. -/
def bootAs (n : Nat) : State :=
  { doneAbc with
    moves := (0x01000000#32 :: ((List.replicate n 0x61#8).map fun b => (0x02#8 ++ 0#16 ++ b : Word)) ++
      [0x07000000#32]).map (Move.write 0x000#12) }

theorem witness_BootSequenceHashesAnyMessage_ends :
    ((List.replicate 0 0x61#8).length ≤ 55 ∧ (bootAs 0).rstN = true ∧ (bootAs 0).busy = false ∧
      (bootAs 0).moves = [.write 0x000#12 0x01000000#32, .write 0x000#12 0x07000000#32]) ∧
    ((List.replicate 55 0x61#8).length ≤ 55 ∧ (bootAs 55).rstN = true ∧ (bootAs 55).busy = false ∧
      (bootAs 55).moves.length = 57) := by decide +kernel

theorem witness_LegalityTableHolds :
    loadAbc.phase ≠ .error ∧ legal .final loadAbc.phase = false ∧ legal .pad loadAbc.phase = true ∧ PhaseInv loadAbc ∧
    errorIdle.phase = .error ∧ wellFormed 0x08000000#32 = false :=
  ⟨by decide +kernel, by decide +kernel, by decide +kernel, phaseInv_abc _ _ _, rfl, by decide +kernel⟩

theorem witness_IllegalWordRaisesIllegalCmd :
    wellFormed 0x03000001#32 = false ∧ doneAbc.phase ≠ .error ∧ errorIdle.phase = .error := by decide +kernel

theorem witness_ErrorPhaseIgnoresAllButInit :
    errorIdle.phase = .error ∧ 0x01000001#32 ≠ 0x01000000#32 ∧ Reg.errcmd ≠ .status ∧ ∀ n, Reg.errcmd ≠ .hex n := by
  decide +kernel

theorem witness_ErrorsArePreciseAndListed :
    ((loadAs 55).phase ≠ .error ∧ ∃ t, execWord 0x02000061#32 (loadAs 55) = .next t ∧ t.phase = .error) ∧
    (doneAbc.phase ≠ .error ∧ ∃ t, execWord 0x03000001#32 doneAbc = .next t ∧ t.phase = .error) :=
  ⟨⟨by decide +kernel, _, rfl, rfl⟩, by decide +kernel, _, rfl, rfl⟩

theorem witness_DoneOnlyByFinalOrHash :
    ∃ t, exec .final compressedAbc = .next t ∧ compressedAbc.phase ≠ .done ∧ t.phase = .done :=
  ⟨_, rfl, by decide +kernel, rfl⟩

theorem witness_EachElementHasItsWriters :
    ∃ t, exec .pad loadAbc = .next t ∧ t.blk ≠ loadAbc.blk ∧ t.w ≠ loadAbc.w ∧ t.scnt ≠ loadAbc.scnt :=
  ⟨_, rfl, by decide +kernel, by decide +kernel, by decide +kernel⟩

theorem witness_EachElementHasItsWriters_error :
    ∃ t, exec .final loadAbc = .next t ∧ t.err ≠ loadAbc.err ∧ t.errcmd ≠ loadAbc.errcmd ∧ t.phase ≠ loadAbc.phase :=
  ⟨_, rfl, by decide +kernel, by decide +kernel, by decide +kernel⟩

theorem witness_CountersOnlyIncrease_pad :
    PhaseInv (inFlight 0x03000000#32 []) ∧ ∃ t, step (inFlight 0x03000000#32 []) = .next t :=
  ⟨phaseInv_abc _ _ _, _, rfl⟩

theorem witness_CountersOnlyIncrease_reset :
    PhaseInv (atRest [.rstN false]) ∧ ∃ t, step (atRest [.rstN false]) = .next t :=
  ⟨phaseInv_abc _ _ _, _, rfl⟩

theorem witness_ReservedAddressesReadZero :
    ∀ a ∈ [0x014#12, 0x01C#12, 0x01F#12, 0x300#12, 0xFFC#12],
      (0x014 ≤ a.toNat ∧ a.toNat ≤ 0x01F) ∨ 0x300 ≤ a.toNat := by decide +kernel

theorem witness_ReadReturnsRegisterAndChangesNothing :
    (atRest [.read 0xFFC#12]).rstN = true ∧ (atRest [.read 0xFFC#12]).busy = false ∧
    (atRest [.read 0xFFC#12]).moves = .read 0xFFC#12 :: [] ∧ misaligned 0xFFC#12 = false :=
  ⟨rfl, rfl, rfl, by decide +kernel⟩

theorem witness_BusyStallsTheHost_read :
    (inFlight 0x03000000#32 [.read 0x020#12]).busy = true ∧ regOf 0x020#12 ≠ .status ∧
    ∃ t, step (inFlight 0x03000000#32 [.read 0x020#12]) = .next t :=
  ⟨rfl, by decide +kernel, _, rfl⟩

theorem witness_BusyStallsTheHost_write :
    (inFlight 0x03000000#32 [.write 0x000#12 0#32]).busy = true ∧
    ∃ t, step (inFlight 0x03000000#32 [.write 0x000#12 0#32]) = .next t :=
  ⟨rfl, _, rfl⟩

theorem witness_StatusReadWhileBusy :
    (inFlight 0x07000000#32 [.read 0x004#12]).rstN = true ∧ (inFlight 0x07000000#32 [.read 0x004#12]).busy = true ∧
    (inFlight 0x07000000#32 [.read 0x004#12]).moves = .read 0x004#12 :: [] := ⟨rfl, rfl, rfl⟩

theorem witness_MisalignedAccessIsRefused :
    (0x001#12).toNat % 4 ≠ 0 ∧ (0xFFE#12).toNat % 4 ≠ 0 ∧
    (atRest [.read 0x001#12]).moves = .read 0x001#12 :: [] ∧
    (atRest [.write 0xFFE#12 0#32]).moves = .write 0xFFE#12 0#32 :: [] :=
  ⟨by decide +kernel, by decide +kernel, rfl, rfl⟩

theorem witness_HexDigitCodes : (9#4).toNat ≤ 9 ∧ 10 ≤ (10#4).toNat ∧ 10 ≤ (15#4).toNat := by decide +kernel

theorem witness_HexRegistersSpellTheDigest : doneAbc.phase = .done ∧ compressedAbc.phase ≠ .done := by decide +kernel

theorem witness_HexIsGatedToDone : hexReg false doneAbc 0 ≠ 0#32 ∧ hexReg false doneAbc 15 ≠ 0#32 := by decide +kernel

/-- Held in reset, and the host reads IV0. -/
def heldReading : State := { State.reset with rstN := false, moves := [.read 0x060#12] }

theorem witness_ResetHoldsTheEngine :
    (heldReading.rstN = false ∧ heldReading.moves = .read 0x060#12 :: [] ∧ ∃ t, step heldReading = .next t) ∧
    ((inFlight 0x07000000#32 [.rstN false]).moves = .rstN false :: [] ∧
      ∃ t, step (inFlight 0x07000000#32 [.rstN false]) = .next t) :=
  ⟨⟨rfl, rfl, _, rfl⟩, rfl, _, rfl⟩

theorem witness_PrimitivesBitByBit : (31 : Nat) ≤ 31 ∧ (0 : Nat) ≤ 31 := by decide

theorem witness_constant_ranges : 64 ≤ 64 ∧ 7 < 8 ∧ 63 < 64 := by decide

theorem witness_RotateRightLaws : (1 ≤ 1 ∧ 1 ≤ 31) ∧ (1 ≤ 31 ∧ 31 ≤ 31) := by decide

theorem witness_PaddingOfAnyLength :
    ([] : List Byte).length < 1 ∧ 1 + 8 < (pad []).length ∧
    ([0x61#8] : List Byte).length < 55 ∧ 55 + 8 < (pad [0x61#8]).length := by decide +kernel

theorem witness_LaunchStatesMeetInvariants :
    AfterReset State.reset ∧ AfterInit { initState (inFlight 0x01000000#32 []) with busy := false } :=
  ⟨⟨rfl, rfl⟩, inFlight 0x01000000#32 [], rfl, rfl, rfl, rfl⟩

theorem witness_StepKeepsPhaseInvariants :
    PhaseInv (inFlight 0x03000000#32 []) ∧ ∃ t, step (inFlight 0x03000000#32 []) = .next t :=
  ⟨phaseInv_abc _ _ _, _, rfl⟩

theorem witness_StepKeepsDataMeaning :
    DataInv (inFlight 0x03000000#32 []) ∧ ∃ t, step (inFlight 0x03000000#32 []) = .next t :=
  ⟨dataInv_abc _ _ _, _, rfl⟩

/-- The schedule of "abc". -/
def scheduleAbc : List Word := scheduleOf doneAbc.message

/-- Rows 31 and 63 of V-CMP-1 by the pure function. -/
theorem work_abc_32 : workAfter 32 scheduleAbc = ⟨0x73b33bf5#32, 0xea992a22#32, 0xa0060b30#32, 0x363482c9#32, 0xba591112#32, 0x0109ab3a#32, 0xade79437#32, 0x6112a3b7#32⟩ := by decide +kernel

theorem work_abc : doneAbc.wv = workAfter 64 scheduleAbc := by
  have h := workAfter_fold (ws := scheduleAbc) (by decide +kernel) (fun i => scheduleAbc.getD i 0#32) (fun _ _ => rfl) 32 32
    (by decide)
  rw [work_abc_32] at h
  rw [← h]
  decide +kernel

theorem witness_DoneHoldsTheDigest : DataInv doneAbc ∧ doneAbc.phase = .done := by
  refine ⟨⟨phaseInv_done, fun _ => by decide +kernel, ?_, ?_⟩, rfl⟩
  case refine_2 => rw [if_neg (by decide +kernel : doneAbc.rcnt ≠ 0#7)]; exact work_abc
  intro i hi
  have h : doneAbc.w.toList = scheduleAbc := by decide +kernel
  rw [if_pos (by rw [(by decide +kernel : doneAbc.scnt.toNat = 64)]; exact hi)]
  show _ = scheduleAbc.getD i 0#32
  rw [← h, State.wAt, getD_of_lt _ _ _ hi, List.getD_eq_getElem?_getD, List.getElem?_eq_getElem (by simpa using hi),
    Option.getD_some, Vector.getElem_toList]

theorem witness_AlignedStepAnswersNext :
    PhaseInv (inFlight 0x07000000#32 [.read 0x004#12, .write 0x000#12 0#32]) ∧
    Aligned (inFlight 0x07000000#32 [.read 0x004#12, .write 0x000#12 0#32]) :=
  ⟨phaseInv_abc _ _ _, aligned_status _⟩

theorem witness_InitForgetsThePast :
    (∃ t, execWords [0x01000000#32, 0x02000061#32, 0x03000000#32] doneAbc = .next t) ∧
    (∃ t, execWords [0x01000000#32, 0x02000061#32, 0x03000000#32] errorIdle = .next t) :=
  ⟨⟨_, rfl⟩, ⟨_, rfl⟩⟩

theorem witness_IdleEngineKeepsItsState :
    doneAbc.rstN = true ∧ doneAbc.busy = false ∧ doneAbc.moves = [] := ⟨rfl, rfl, rfl⟩

theorem witness_DigestPseudoAssembles : ∀ c ∈ ['a', 'ÿ'], c.toNat ≤ 255 := by
  simp only [List.mem_cons, List.not_mem_nil, or_false]
  rintro c (rfl | rfl)
  · exact (by decide : 97 ≤ 255)
  · exact Nat.le_refl 255

/-- The per-instruction family on one command of each operand form. -/
theorem witness_EncodeWellFormed :
    Laws.EncodeWellFormed.Statement .hash ∧ Laws.EncodeWellFormed.Statement (.push 0xFF#8) :=
  ⟨Laws.EncodeWellFormed.hash, Laws.EncodeWellFormed.push _⟩

end Sys2Proof.Tests
end

section
/-! PROOFS. The state through a run (10_state.md): what a completed word can do, the phase invariants (R48) and the
meaning of the data (R37 to R42) through every step, the writers of each element (R30), the counters (R45), the message
and the digest (R36, R50, R298), and the launch states (R49, R361). -/

namespace Sys2Proof.Machine

/-! What a completed word can do -/

theorem encode_of_decodeOp {op arg : Byte} {i : Instr} (h : decodeOp op arg = .ok i) :
    encode i = commandWord op arg := by
  unfold decodeOp withoutArg at h
  split_ifs at h <;> injection h with h <;> subst h <;> simp [encode, *]

/-- R113: a word that decodes to a command is the command's word. -/
theorem encode_of_decode {c : Word} {i : Instr} (h : decode c = .ok i) : encode i = c := by
  unfold decode at h
  split at h
  · rename_i hrsv
    calc encode i = opOf c ++ rsvOf c ++ argOf c := by rw [encode_of_decodeOp h, hrsv, commandWord]
      _ = c := (commandWord_split c).symm
  · cases h

/-- R111: the decoder of a word of the fields OP, RSV = 0 and ARG. -/
theorem decode_commandWord (op arg : Byte) : decode (commandWord op arg) = decodeOp op arg := by
  obtain ⟨hop, hrsv, harg⟩ := fields_of_append op arg 0#16
  rw [decode, rsvOf, opOf, argOf, commandWord, hop, hrsv, harg, if_pos rfl]

theorem decode_initWord : decode 0x01000000#32 = .ok .init := by decide

/-- All a command can do when it answers a next state, INIT among them. -/
theorem exec_next {i : Instr} {s t : State} (h : exec i s = .next t) :
    (s.phase = .error ∧ t = s) ∨
    (bodyOf i s = .ok t ∧ (s.phase = .error → i = .init)) ∨
    (s.phase ≠ .error ∧ ∃ code, bodyOf i s = .error (.error code) ∧ t = raiseError code (encode i) s) := by
  by_cases hi : i = .init
  · subst hi
    injection h with h
    exact .inr (.inl ⟨by rw [← h]; rfl, fun _ => rfl⟩)
  · rw [exec_of_ne_init hi] at h
    rcases runCommand_next _ _ _ h with ⟨hp, ht⟩ | ⟨hp, hb⟩ | ⟨hp, herr⟩
    · exact .inl ⟨hp, ht⟩
    · exact .inr (.inl ⟨hb, fun he => absurd he hp⟩)
    · exact .inr (.inr ⟨hp, herr⟩)

/-- R292, R297: all a word can do when it answers a next state. -/
theorem execWord_next {c : Word} {s t : State} (h : execWord c s = .next t) :
    (s.phase = .error ∧ t = s) ∨
    (∃ i, decode c = .ok i ∧ bodyOf i s = .ok t ∧ (s.phase = .error → i = .init)) ∨
    (s.phase ≠ .error ∧ ∃ code, (code = .illegalCmd ∨ ∃ i, bodyOf i s = .error (.error code)) ∧
      t = raiseError code c s) := by
  cases hd : decode c with
  | ok i =>
    rw [execWord_ok hd] at h
    rcases exec_next h with hs | ⟨hb, hi⟩ | ⟨hp, code, hb, ht⟩
    · exact .inl hs
    · exact .inr (.inl ⟨i, rfl, hb, hi⟩)
    · exact .inr (.inr ⟨hp, code, .inr ⟨i, hb⟩, by rw [ht, encode_of_decode hd]⟩)
  | error why =>
    rw [execWord_illegal hd] at h
    rcases runCommand_next _ _ _ h with hs | ⟨_, hb⟩ | ⟨hp, code, hb, ht⟩
    · exact .inl hs
    · cases hb
    · injection hb with hb
      injection hb with hb
      exact .inr (.inr ⟨hp, code, .inl hb.symm, ht⟩)

/-- No word writes BUSY, PEND or the model's own fields (R291 writes BUSY and PEND). -/
theorem execWord_keeps_own {c : Word} {s t : State} (h : execWord c s = .next t) :
    t.pend = s.pend ∧ t.busy = s.busy ∧ t.rstN = s.rstN ∧ t.moves = s.moves ∧ t.replies = s.replies ∧
      t.draws = s.draws := by
  rcases execWord_next h with ⟨_, ht⟩ | ⟨i, _, hb, _⟩ | ⟨_, code, _, ht⟩
  · simp [ht]
  · exact bodyOf_keeps_own hb
  · simp [ht]

/-- An invariant of the computation alone, that a reset establishes and every word keeps, is kept by every step. -/
theorem step_preserves {P : State → Prop}
    (same : ∀ {s t : State}, P s → SameComputation s t → t.rstN = true → P t)
    (word : ∀ {c : Word} {s t : State}, P s → s.rstN = true → execWord c s = .next t → P t)
    (reset : ∀ {t : State}, resetEngine t = t → P t)
    {s t : State} (hs : P s) (h : step s = .next t) : P t := by
  rcases step_next h with ⟨hr, _, rest, _, u, hu, rfl⟩ | ⟨hr, _, ht⟩ | ⟨hr, _, _, ht⟩ | ⟨_, _, ht⟩ | ⟨_, _, ht⟩
  · obtain ⟨_, _, hur, _⟩ := execWord_keeps_own hu
    have hm : P { s with moves := rest } := same hs (by constructor <;> rfl) hr
    exact same (word hm hr hu) (by constructor <;> rfl) (hur.trans hr)
  · rw [ht]
    exact same hs (by constructor <;> rfl) hr
  · rw [ht]
    exact same hs (by constructor <;> rfl) hr
  · exact reset (by rw [ht]; rfl)
  · exact reset (by rw [ht]; rfl)

/-! The phase invariants (R48) -/

/-- R36: MSGLEN is at most 55 in every row. -/
theorem row_msglen {p : Phase} {s : State} (h : Row p s) : s.msglen.toNat ≤ 55 := by
  cases p with
  | idle => obtain ⟨hm, _⟩ := h; simp [hm]
  | error => exact h.elim
  | load | padded | expanded | compress | compressed | done => obtain ⟨hm, _⟩ := h; exact hm

theorem row_ne_error {p : Phase} {s : State} (h : Row p s) : p ≠ .error := by
  rintro rfl
  exact h

/-- I10, R193: the codes a word raises with MSGLEN in its range. -/
theorem raised_code {s : State} {code : ErrCode} (hm : s.msglen.toNat ≤ 55)
    (h : code = .illegalCmd ∨ ∃ i, bodyOf i s = .error (.error code)) :
    code ≠ .none ∧ code ≠ .paddingInvariant ∧ code ≠ .primeSearchExhausted := by
  rcases h with rfl | ⟨i, h⟩
  · decide
  cases i with
  | nop => cases h
  | init => cases h
  | push b => rcases pushBody_error h with ⟨_, rfl⟩ | ⟨rfl, _⟩ <;> decide
  | pad =>
    rcases padBody_error h with ⟨_, rfl⟩ | ⟨_, hgt⟩
    · decide
    · omega
  | expand n => rcases expandBody_error h with ⟨_, rfl⟩ | ⟨rfl, _⟩ <;> decide
  | round n => rcases roundBody_error h with ⟨_, rfl⟩ | ⟨rfl, _⟩ <;> decide
  | final => rw [(finalBody_error h).2]; decide
  | hash =>
    rcases hashBody_error h with ⟨_, rfl⟩ | ⟨_, hgt⟩ | ⟨rfl, _⟩
    · decide
    · omega
    · decide

/-- A state in its phase's row with no error recorded. -/
theorem phaseInv_of_row {s : State} (hrow : Row s.phase s) (herr : s.err = .none) (hcmd : s.errcmd = 0#32)
    (hheld : s.rstN = false → resetEngine s = s) : PhaseInv s where
  row := ⟨s.phase, .inl rfl, hrow⟩
  err_iff := by simp [herr, row_ne_error hrow]
  errcmd_zero _ := hcmd
  err_codes := by simp [herr]
  held := hheld

theorem PhaseInv.row_self {s : State} (h : PhaseInv s) (hp : s.phase ≠ .error) : Row s.phase s := by
  obtain ⟨p, hphase, hrow⟩ := h.row
  rwa [hphase.resolve_right hp]

theorem PhaseInv.msglen_le {s : State} (h : PhaseInv s) : s.msglen.toNat ≤ 55 :=
  let ⟨_, _, hrow⟩ := h.row
  row_msglen hrow

theorem PhaseInv.no_error {s : State} (h : PhaseInv s) (hp : s.phase ≠ .error) : s.err = .none ∧ s.errcmd = 0#32 := by
  have herr : s.err = .none := by
    by_contra hne
    exact hp (h.err_iff.mp hne)
  exact ⟨herr, h.errcmd_zero herr⟩

theorem phaseInv_initState {s : State} (hr : s.rstN = true) : PhaseInv (initState s) :=
  phaseInv_of_row (init_row s) rfl rfl (by simp [hr])

theorem phaseInv_of_resetEngine {s : State} (h : resetEngine s = s) : PhaseInv s := by
  refine phaseInv_of_row ?_ ?_ ?_ fun _ => h <;> rw [← h]
  · exact ⟨rfl, rfl, rfl, rfl, rfl, rfl, rfl⟩
  · rfl
  · rfl

/-- The phase invariants of a state out of reset are about its computation only. -/
theorem PhaseInv.of_same {s t : State} (h : PhaseInv s) (e : SameComputation s t) (hr : t.rstN = true) :
    PhaseInv t where
  row := by
    obtain ⟨p, hphase, hrow⟩ := h.row
    exact ⟨p, by rwa [e.phase], row_of_eq e.msglen e.scnt e.rcnt e.h e.blk e.w e.wv hrow⟩
  err_iff := by rw [e.err, e.phase]; exact h.err_iff
  errcmd_zero := by rw [e.err, e.errcmd]; exact h.errcmd_zero
  err_codes := by rw [e.err]; exact h.err_codes
  held := by simp [hr]

theorem PhaseInv.of_body {i : Instr} {s t : State} (h : PhaseInv s) (hp : s.phase ≠ .error) (hr : s.rstN = true)
    (hb : bodyOf i s = .ok t) : PhaseInv t := by
  by_cases hi : i = .init
  · subst hi
    injection hb with hb
    exact hb ▸ phaseInv_initState hr
  · obtain ⟨herr, hcmd⟩ := bodyOf_keeps_error_record hi hb
    obtain ⟨_, _, hrst, _⟩ := bodyOf_keeps_own hb
    obtain ⟨hnone, hzero⟩ := h.no_error hp
    exact phaseInv_of_row (bodyOf_row hb (h.row_self hp)) (herr.trans hnone) (hcmd.trans hzero) (by simp [hrst, hr])

/-- R312: the row is that of the phase before the error. -/
theorem PhaseInv.of_raiseError {code : ErrCode} {s : State} (h : PhaseInv s) (hr : s.rstN = true)
    (hcode : code ≠ .none ∧ code ≠ .paddingInvariant ∧ code ≠ .primeSearchExhausted) (c : Word) :
    PhaseInv (raiseError code c s) where
  row := by
    obtain ⟨p, _, hrow⟩ := h.row
    exact ⟨p, .inr rfl, row_of_eq rfl rfl rfl rfl rfl rfl rfl hrow⟩
  err_iff := by simp [hcode.1]
  errcmd_zero := by simp [hcode.1]
  err_codes := hcode.2
  held := by simp [hr]

theorem PhaseInv.of_execWord {c : Word} {s t : State} (h : PhaseInv s) (hr : s.rstN = true)
    (he : execWord c s = .next t) : PhaseInv t := by
  rcases execWord_next he with ⟨_, rfl⟩ | ⟨i, _, hb, hi⟩ | ⟨_, code, hcode, rfl⟩
  · exact h
  · by_cases hp : s.phase = .error
    · obtain rfl := hi hp
      injection hb with hb
      exact hb ▸ phaseInv_initState hr
    · exact h.of_body hp hr hb
  · exact h.of_raiseError hr (raised_code h.msglen_le hcode) c

/-- Settles O53: completions keep the rows, and the other steps change nothing of the computation or reset it. -/
theorem stepKeepsPhaseInvariants : Obligations.StepKeepsPhaseInvariants := by
  unfold Obligations.StepKeepsPhaseInvariants
  intro s t hs h
  exact step_preserves PhaseInv.of_same PhaseInv.of_execWord phaseInv_of_resetEngine hs h

/-! Padding, schedule and rounds against the reference (R196, R220, R240) -/

/-- R196: the words PAD loads are the message's first sixteen schedule words. -/
theorem paddedState_schedule {s : State} (hm : s.msglen.toNat ≤ 55) {i : Nat} (hi : i < 16) :
    (paddedState s).wAt i = (scheduleOf s.message).getD i 0#32 := by
  have hl := message_length s (by omega)
  have hbyte : ∀ j, j < 64 → (pad s.message).getD j 0#8 = (padBlock s.blk s.msglen.toNat).getD j 0#8 := by
    intro j hj
    rw [← padBlock_toList s hm, getD_of_lt _ _ _ hj]
    simp [List.getD_eq_getElem?_getD, hj]
  calc (paddedState s).wAt i = blockWord (padBlock s.blk s.msglen.toNat) i := by
        rw [State.wAt, paddedState, loadSchedule_getD, if_pos hi]
    _ = (scheduleOf s.message).getD i 0#32 := by
        rw [scheduleOf_first (by omega) i hi, hbyte _ (by omega), hbyte _ (by omega), hbyte _ (by omega),
          hbyte _ (by omega), blockWord]

/-- R220: the expansion steps continue the message's schedule. -/
theorem expandSteps_schedule {m : List Byte} (hm : m.length ≤ 55) {n : Nat} {s : State} (h16 : 16 ≤ s.scnt.toNat)
    (hn : s.scnt.toNat + n ≤ 64) (hs : ∀ i, i < s.scnt.toNat → s.wAt i = (scheduleOf m).getD i 0#32) (i : Nat) :
    i < s.scnt.toNat + n → (expandSteps n s).wAt i = (scheduleOf m).getD i 0#32 := by
  induction i using Nat.strong_induction_on with
  | _ i ih =>
    intro hi
    by_cases hold : i < s.scnt.toNat
    · rw [expandSteps_wAt_other n s i hn (.inl hold), hs i hold]
    · rw [expandSteps_wAt_new n s i h16 hn (by omega) hi, scheduleOf_step hm i (by omega) (by omega),
        ih (i - 16) (by omega) (by omega), ih (i - 15) (by omega) (by omega), ih (i - 7) (by omega) (by omega),
        ih (i - 2) (by omega) (by omega)]

theorem closeSchedule_wAt (s : State) (i : Nat) : (closeSchedule s).wAt i = s.wAt i := by
  simp [State.wAt]

/-- R221: EXPAND makes the words below SCNT the message's schedule and leaves those from SCNT on. -/
theorem expandBody_schedule {m : List Byte} {arg : Byte} {s t : State} (hm : m.length ≤ 55)
    (h : expandBody arg s = .ok t) (hle : s.scnt.toNat ≤ 64)
    (hs : ∀ i, i < s.scnt.toNat → s.wAt i = (scheduleOf m).getD i 0#32) :
    s.scnt.toNat ≤ t.scnt.toNat ∧ (∀ i, i < t.scnt.toNat → t.wAt i = (scheduleOf m).getD i 0#32) ∧
      ∀ i, t.scnt.toNat ≤ i → t.wAt i = s.wAt i := by
  obtain ⟨_, h16, hc, rfl⟩ := expandBody_inv h
  have hn : s.scnt.toNat + count arg s.scnt ≤ 64 := by omega
  simp only [closeSchedule_scnt, closeSchedule_wAt, expandSteps_scnt_toNat _ _ hn]
  exact ⟨by omega, expandSteps_schedule hm h16 hn hs, fun i hi => expandSteps_wAt_other _ s i hn (.inr hi)⟩

/-- R243, R244: ROUND continues the rounds over a schedule ws that stands in W. -/
theorem roundBody_work {ws : List Word} {arg : Byte} {s t : State} (hws : ws.length = 64)
    (h : roundBody arg s = .ok t) (hle : s.rcnt.toNat ≤ 64) (hw : ∀ i, i < 64 → s.wAt i = ws.getD i 0#32)
    (hv : (openWork s).wv = workAfter s.rcnt.toNat ws) :
    t.rcnt.toNat = s.rcnt.toNat + count arg s.rcnt ∧ t.wv = workAfter t.rcnt.toNat ws := by
  obtain ⟨_, hc, rfl⟩ := roundBody_inv h
  have hn : (openWork s).rcnt.toNat + count arg s.rcnt ≤ 64 := by rw [openWork_rcnt]; omega
  have hw' : ∀ i, i < 64 → (openWork s).wAt i = ws.getD i 0#32 := fun i hi => by
    rw [← hw i hi, State.wAt, openWork_w, State.wAt]
  rw [closeRounds_rcnt, closeRounds_wv, roundSteps_rcnt_toNat _ _ hn, roundSteps_wv _ _ hn, openWork_rcnt, hv,
    workAfter_fold hws _ hw' _ _ (by omega)]
  exact ⟨rfl, rfl⟩

/-! The meaning of the data (R37 to R42) -/

/-- The part of `DataInv` beside the phase invariants. -/
structure DataMeaning (s : State) : Prop where
  block : s.scnt ≠ 0#7 → s.blk.toList = pad s.message
  schedule : ∀ i, i < 64 → s.wAt i = if i < s.scnt.toNat then (scheduleOf s.message).getD i 0#32 else 0#32
  work : s.wv = if s.rcnt = 0#7 then WorkVars.zero else workAfter s.rcnt.toNat (scheduleOf s.message)

theorem dataInv_iff {s : State} : DataInv s ↔ PhaseInv s ∧ DataMeaning s :=
  ⟨fun h => ⟨h.phases, h.block, h.schedule, h.work⟩, fun ⟨hp, hd⟩ => ⟨hp, hd.block, hd.schedule, hd.work⟩⟩

theorem wAt_of_eq {s t : State} (h : t.w = s.w) (i : Nat) : t.wAt i = s.wAt i := by
  rw [State.wAt, h, State.wAt]

/-- The meaning reads these elements only. -/
theorem DataMeaning.of_eq {s t : State} (h : DataMeaning s) (hmsglen : t.msglen = s.msglen) (hblk : t.blk = s.blk)
    (hw : t.w = s.w) (hscnt : t.scnt = s.scnt) (hwv : t.wv = s.wv) (hrcnt : t.rcnt = s.rcnt) : DataMeaning t := by
  have hmsg : t.message = s.message := by rw [State.message, State.message, hmsglen, hblk]
  constructor
  · rw [hscnt, hblk, hmsg]; exact h.block
  · simp only [wAt_of_eq hw, hscnt, hmsg]; exact h.schedule
  · rw [hwv, hrcnt, hmsg]; exact h.work

/-- Before PAD there is nothing in W and WV. -/
theorem dataMeaning_of_cleared {s : State} (hscnt : s.scnt = 0#7) (hrcnt : s.rcnt = 0#7)
    (hw : s.w = Vector.replicate 64 0#32) (hwv : s.wv = WorkVars.zero) : DataMeaning s := by
  constructor
  · exact fun h => absurd hscnt h
  · intro i _
    rw [State.wAt, hw, zeroSchedule_getD]
    simp [hscnt]
  · rw [if_pos hrcnt, hwv]

theorem dataMeaning_of_row_load {s : State} (h : Row .load s) : DataMeaning s := by
  obtain ⟨_, hscnt, hrcnt, _, _, hw, hwv⟩ := h
  exact dataMeaning_of_cleared hscnt hrcnt hw hwv

theorem pad_meaning {s t : State} (h : padBody s = .ok t) (hrow : Row .load s) : DataMeaning t := by
  obtain ⟨_, hm, rfl⟩ := padBody_inv h
  obtain ⟨_, _, hrcnt, _, _, hw, hwv⟩ := hrow
  have hmsg := paddedState_message s hm
  constructor
  · rw [hmsg]; exact fun _ => padBlock_toList s hm
  · intro i _
    rw [hmsg]
    by_cases hi : i < 16
    · rw [paddedState_schedule hm hi]
      simp [paddedState, hi]
    · rw [State.wAt, paddedState, loadSchedule_getD, if_neg hi, hw, zeroSchedule_getD]
      simp [hi]
  · rw [if_pos (by exact hrcnt)]; exact hwv

theorem expand_meaning {arg : Byte} {s t : State} (h : expandBody arg s = .ok t) (hrow : Row .padded s)
    (hs : DataMeaning s) : DataMeaning t := by
  obtain ⟨hm, h16, h63, _, _⟩ := hrow
  have hl := message_length s (by omega)
  have hmsg : t.message = s.message := by rw [expandBody_frame h]; rfl
  have hblk : t.blk = s.blk := by rw [expandBody_frame h]
  have hwv : t.wv = s.wv := by rw [expandBody_frame h]
  have hrcnt : t.rcnt = s.rcnt := by rw [expandBody_frame h]
  obtain ⟨hge, hnew, hrest⟩ := expandBody_schedule (m := s.message) (by omega) h (by omega) fun i hi => by
    rw [hs.schedule i (by omega), if_pos hi]
  constructor
  · rw [hmsg, hblk]
    exact fun _ => hs.block fun h0 => by simp [h0] at h16
  · intro i hi
    rw [hmsg]
    split
    · exact hnew i ‹_›
    · rw [hrest i (by omega), hs.schedule i hi, if_neg (by omega)]
  · rw [hmsg, hwv, hrcnt]; exact hs.work

theorem round_meaning {arg : Byte} {s t : State} (h : roundBody arg s = .ok t)
    (hrow : (s.phase = .expanded ∧ Row .expanded s) ∨ (s.phase = .compress ∧ Row .compress s))
    (hs : DataMeaning s) : DataMeaning t := by
  have hmsg : t.message = s.message := by rw [roundBody_frame h]; rfl
  have hblk : t.blk = s.blk := by rw [roundBody_frame h]
  have hw : t.w = s.w := by rw [roundBody_frame h]
  have hscnt : t.scnt = s.scnt := by rw [roundBody_frame h]
  have hstart : s.msglen.toNat ≤ 55 ∧ s.scnt = 64#7 ∧ s.rcnt.toNat ≤ 63 ∧
      (openWork s).wv = workAfter s.rcnt.toNat (scheduleOf s.message) := by
    rcases hrow with ⟨hp, hm, hs64, hr0, hh⟩ | ⟨hp, hm, hs64, hr1, hr63, _⟩
    · refine ⟨hm, hs64, by simp [hr0], ?_⟩
      rw [openWork_of_expanded hp, loadWorking_wv, hh, hr0]
      exact (workAfter_zero _).symm
    · refine ⟨hm, hs64, hr63, ?_⟩
      rw [openWork_of_compress hp, hs.work, if_neg fun h0 => by simp [h0] at hr1]
  obtain ⟨hm, hs64, hr63, hopen⟩ := hstart
  have hl := message_length s (by omega)
  have hfull : ∀ i, i < 64 → s.wAt i = (scheduleOf s.message).getD i 0#32 := fun i hi => by
    rw [hs.schedule i hi, if_pos (by simpa [hs64] using hi)]
  obtain ⟨hcnt, hwork⟩ := roundBody_work (scheduleOf_length (by omega)) h (by omega) hfull hopen
  have hpos : 1 ≤ count arg s.rcnt := count_pos hr63
  constructor
  · rw [hmsg, hblk, hscnt]; exact hs.block
  · simp only [wAt_of_eq hw, hscnt, hmsg]; exact hs.schedule
  · rw [if_neg fun h0 => by simp [h0] at hcnt; omega, hmsg, hwork]

theorem final_meaning {s t : State} (h : finalBody s = .ok t) (hs : DataMeaning s) : DataMeaning t := by
  obtain ⟨_, rfl⟩ := finalBody_inv h
  exact hs.of_eq rfl rfl rfl rfl rfl rfl

/-- R296: the four stages in turn. -/
theorem hash_meaning {s t : State} (h : hashBody s = .ok t) (hrow : Row .load s) : DataMeaning t := by
  obtain ⟨p, e, c, hp, he, hc, ht⟩ := hashBody_inv h
  obtain ⟨_, rowp⟩ := pad_row hp hrow
  obtain ⟨rowe, phasee, _⟩ := expand_row he rowp
  have hexp := phasee rfl
  rw [hexp] at rowe
  exact final_meaning ht (round_meaning hc (.inl ⟨hexp, rowe⟩) (expand_meaning he rowp (pad_meaning hp hrow)))

/-- Every command keeps the meaning of the data. -/
theorem bodyOf_meaning {i : Instr} {s t : State} (h : bodyOf i s = .ok t) (hrow : Row s.phase s)
    (hs : DataMeaning s) : DataMeaning t := by
  cases i with
  | nop => injection h with h; exact h ▸ hs
  | init => injection h with h; exact h ▸ dataMeaning_of_row_load (init_row s)
  | push b =>
    rw [(pushBody_inv h).1] at hrow
    exact dataMeaning_of_row_load (push_row h hrow).2
  | pad =>
    rw [(padBody_inv h).1] at hrow
    exact pad_meaning h hrow
  | expand n =>
    rw [(expandBody_inv h).1] at hrow
    exact expand_meaning h hrow hs
  | round n =>
    refine round_meaning h ?_ hs
    rcases (roundBody_inv h).1 with hp | hp <;> rw [hp] at hrow
    · exact .inl ⟨hp, hrow⟩
    · exact .inr ⟨hp, hrow⟩
  | final => exact final_meaning h hs
  | hash =>
    obtain ⟨_, _, _, hp, _⟩ := hashBody_inv h
    rw [(padBody_inv hp).1] at hrow
    exact hash_meaning h hrow

theorem dataInv_initState {s : State} (hr : s.rstN = true) : DataInv (initState s) :=
  dataInv_iff.mpr ⟨phaseInv_initState hr, dataMeaning_of_row_load (init_row s)⟩

theorem dataInv_of_resetEngine {s : State} (h : resetEngine s = s) : DataInv s := by
  refine dataInv_iff.mpr ⟨phaseInv_of_resetEngine h, ?_⟩
  rw [← h]
  exact dataMeaning_of_cleared rfl rfl rfl rfl

theorem DataInv.of_same {s t : State} (h : DataInv s) (e : SameComputation s t) (hr : t.rstN = true) : DataInv t := by
  obtain ⟨hp, hd⟩ := dataInv_iff.mp h
  exact dataInv_iff.mpr ⟨hp.of_same e hr, hd.of_eq e.msglen e.blk e.w e.scnt e.wv e.rcnt⟩

theorem DataInv.of_execWord {c : Word} {s t : State} (h : DataInv s) (hr : s.rstN = true)
    (he : execWord c s = .next t) : DataInv t := by
  obtain ⟨hp, hd⟩ := dataInv_iff.mp h
  refine dataInv_iff.mpr ⟨hp.of_execWord hr he, ?_⟩
  rcases execWord_next he with ⟨_, rfl⟩ | ⟨i, _, hb, hi⟩ | ⟨_, code, _, rfl⟩
  · exact hd
  · by_cases herr : s.phase = .error
    · obtain rfl := hi herr
      injection hb with hb
      exact hb ▸ dataMeaning_of_row_load (init_row s)
    · exact bodyOf_meaning hb (hp.row_self herr) hd
  · exact hd.of_eq rfl rfl rfl rfl rfl rfl

/-- Settles O54: completions keep the meaning, and the other steps change nothing of the computation or reset it. -/
theorem stepKeepsDataMeaning : Obligations.StepKeepsDataMeaning := by
  unfold Obligations.StepKeepsDataMeaning
  intro s t hs h
  exact step_preserves DataInv.of_same DataInv.of_execWord dataInv_of_resetEngine hs h

/-! The message and the digest (R36, R191, R298) -/

/-- R191: the word of PUSH in LOAD below the limit. -/
theorem execWord_push {b : Byte} {s : State} (hp : s.phase = .load) (hm : s.msglen.toNat < 55) :
    execWord (encode (.push b)) s =
      .next { s with blk := s.blk.setIfInBounds s.msglen.toNat b, msglen := s.msglen + 1#6 } := by
  have hd : decode (encode (.push b)) = .ok (.push b) := decode_commandWord 0x02#8 b
  rw [execWord_ok hd]
  exact runCommand_ok _ _ _ (by simp [hp]) (pushBody_ok b s hp fun h => by simp [h] at hm)

theorem execWords_cons {c : Word} {s t : State} (h : execWord c s = .next t) (cs : List Word) :
    execWords (c :: cs) s = execWords cs t := by
  rw [execWords, h]

/-- Settles O12, by induction on the bytes. -/
theorem pushesBuildTheMessage : Obligations.PushesBuildTheMessage := by
  unfold Obligations.PushesBuildTheMessage
  intro bs
  induction bs with
  | nil => exact fun s _ _ => ⟨s, rfl, by simp, rfl, rfl⟩
  | cons b bs ih =>
    intro s hp hm
    rw [List.length_cons] at hm
    have hlt : s.msglen.toNat < 55 := by omega
    have hlen : (s.msglen + 1#6).toNat = s.msglen.toNat + 1 := by bv_omega
    obtain ⟨t, hrun, hmsg, htlen, hframe⟩ :=
      ih { s with blk := s.blk.setIfInBounds s.msglen.toNat b, msglen := s.msglen + 1#6 } hp
        (by simp only [hlen]; omega)
    refine ⟨t, ?_, ?_, ?_, ?_⟩
    · rw [List.map_cons, execWords_cons (execWord_push hp hlt)]; exact hrun
    · rw [hmsg, push_message hlt, List.append_assoc, List.singleton_append]
    · rw [htlen, hlen, List.length_cons]; omega
    · rw [hframe]

/-- R296, R48: the stages of HASH from LOAD all answer states, in the rows of their phases. -/
theorem hashBody_stages {s : State} (hp : s.phase = .load) (hm : s.msglen.toNat ≤ 55) (hr : s.rcnt = 0#7)
    (hh : s.h = ivRom) :
    ∃ e c t, expandBody 0#8 (paddedState s) = .ok e ∧ roundBody 0#8 e = .ok c ∧ finalBody c = .ok t ∧
      hashBody s = .ok t ∧ e.phase = .expanded ∧ Row .expanded e ∧ t.phase = .done ∧ Row .done t := by
  have rowp : Row .padded (paddedState s) := ⟨hm, by simp [paddedState], by simp [paddedState], hr, hh⟩
  obtain ⟨e, he⟩ : ∃ e, expandBody 0#8 (paddedState s) = .ok e :=
    ⟨_, expandBody_ok 0#8 (paddedState s) rfl (by simp [paddedState]) (count_le (by simp))⟩
  obtain ⟨rowe, phasee, _⟩ := expand_row he rowp
  have hexp := phasee rfl
  rw [hexp] at rowe
  obtain ⟨c, hc⟩ : ∃ c, roundBody 0#8 e = .ok c := ⟨_, roundBody_ok 0#8 e (.inl hexp) (count_le (by simp))⟩
  obtain ⟨rowc, phasec, _⟩ := round_row hc (.inl ⟨hexp, rowe⟩)
  have hcomp := phasec rfl
  rw [hcomp] at rowc
  have ht := finalBody_ok c hcomp
  obtain ⟨hdone, rowt⟩ := final_row ht rowc
  exact ⟨e, c, _, he, hc, ht, hashBody_ok hp (padBody_ok s hp hm) he hc ht, hexp, rowe, hdone, rowt⟩

theorem toList_of_getD {v : Vector Word 64} {ws : List Word} (hws : ws.length = 64)
    (h : ∀ i, i < 64 → v.getD i 0#32 = ws.getD i 0#32) : v.toList = ws := by
  apply List.ext_getElem
  · simp [hws]
  · intro i h1 h2
    have hi := h i (by omega)
    rwa [getD_of_lt _ _ _ (by omega), List.getD_eq_getElem _ _ h2] at hi

/-- Settles O25: each stage of HASH against its part of the reference. -/
theorem hashComputesTheDigest : Obligations.HashComputesTheDigest := by
  unfold Obligations.HashComputesTheDigest
  intro s hp hm hr hh
  obtain ⟨e, c, t, he, hc, ht, hhash, hexp, ⟨_, he64, he0, heh⟩, hdone, ⟨_, ht64, hr64, hth⟩⟩ :=
    hashBody_stages hp hm hr hh
  have hl := message_length s (by omega)
  have hlen : (scheduleOf s.message).length = 64 := scheduleOf_length (by omega)
  obtain ⟨_, hsched, _⟩ := expandBody_schedule (m := s.message) (by omega) he (by simp [paddedState])
    fun i hi => paddedState_schedule hm hi
  have hfull : ∀ i, i < 64 → e.wAt i = (scheduleOf s.message).getD i 0#32 := fun i hi =>
    hsched i (by simpa [he64] using hi)
  obtain ⟨_, hwork⟩ := roundBody_work hlen hc (by simp [he0]) hfull (by
    rw [openWork_of_expanded hexp, loadWorking_wv, heh, he0]
    exact (workAfter_zero _).symm)
  obtain ⟨_, rfl⟩ := finalBody_inv ht
  have hcw : c.w = e.w := by rw [roundBody_frame hc]
  have hcb : c.blk = (paddedState s).blk := by rw [roundBody_frame hc, expandBody_frame he]
  refine ⟨_, runCommand_ok _ _ _ (by simp [hp]) hhash, rfl, ?_, ?_, ?_, ht64, hr64, hashBody_frame hhash⟩
  · rw [hth, sha256, hwork, hr64]; rfl
  · rw [hcb]; exact padBlock_toList s hm
  · rw [hcw]; exact toList_of_getD hlen hfull

/-! The writers of each element (R30) and the counters (R45) -/

/-- Settles O32: a word ignored changes nothing, an error changes its record and PHASE, and each body has its frame. -/
theorem eachElementHasItsWriters : Obligations.EachElementHasItsWriters := by
  unfold Obligations.EachElementHasItsWriters
  intro i s t h
  rcases exec_next h with ⟨_, rfl⟩ | ⟨hb, _⟩ | ⟨hp, code, hb, rfl⟩
  · simp
  · cases i with
    | nop => injection hb with hb; subst hb; simp
    | init => injection hb with hb; subst hb; simp
    | push b => rw [(pushBody_inv hb).2.2]; simp
    | pad => rw [(padBody_inv hb).2.2]; simp [paddedState]
    | expand n => rw [expandBody_frame hb]; simp
    | round n => rw [roundBody_frame hb]; simp
    | final => rw [(finalBody_inv hb).2]; simp
    | hash => rw [hashBody_frame hb]; simp
  · have hi : i ≠ .nop := by rintro rfl; cases hb
    simp [hi, hp]

/-- R45: no command but INIT takes a counter back. -/
theorem bodyOf_counters {i : Instr} {s t : State} (hi : i ≠ .init) (h : bodyOf i s = .ok t) (hrow : Row s.phase s) :
    s.scnt.toNat ≤ t.scnt.toNat ∧ s.rcnt.toNat ≤ t.rcnt.toNat := by
  cases i with
  | nop => injection h with h; simp [h]
  | init => exact absurd rfl hi
  | push b => rw [(pushBody_inv h).2.2]; simp
  | pad =>
    rw [(padBody_inv h).1] at hrow
    obtain ⟨_, hs0, _⟩ := hrow
    rw [(padBody_inv h).2.2]
    simp [paddedState, hs0]
  | expand n =>
    rw [(expandBody_inv h).1] at hrow
    obtain ⟨_, _, _, hr0, _⟩ := hrow
    obtain ⟨_, _, hc, rfl⟩ := expandBody_inv h
    rw [closeSchedule_scnt, expandSteps_scnt_toNat _ _ (by omega)]
    simp [hr0]
  | round n =>
    have hle : s.rcnt.toNat ≤ 64 := by
      rcases (roundBody_inv h).1 with hp | hp <;> rw [hp] at hrow
      · obtain ⟨_, _, hr0, _⟩ := hrow; simp [hr0]
      · obtain ⟨_, _, _, hr63, _⟩ := hrow; omega
    have hscnt : t.scnt = s.scnt := by rw [roundBody_frame h]
    obtain ⟨_, hc, rfl⟩ := roundBody_inv h
    rw [hscnt, closeRounds_rcnt, roundSteps_rcnt_toNat _ _ (by rw [openWork_rcnt]; omega), openWork_rcnt]
    omega
  | final => rw [(finalBody_inv h).2]; simp
  | hash =>
    obtain ⟨_, _, _, hp, _⟩ := hashBody_inv h
    rw [(padBody_inv hp).1] at hrow
    obtain ⟨_, _, ht, hr, _⟩ := hash_row h hrow
    obtain ⟨_, hs0, hr0, _⟩ := hrow
    simp [ht, hr, hs0, hr0]

/-- Settles O33: a completion keeps or increases the counters but for INIT, and a reset leaves rst_n = 0 unless the
engine was held, at 0, already. -/
theorem countersOnlyIncrease : Obligations.CountersOnlyIncrease := by
  unfold Obligations.CountersOnlyIncrease
  intro s t hs h
  rcases step_next h with ⟨_, hb, rest, _, u, hu, rfl⟩ | ⟨_, _, ht⟩ | ⟨_, _, _, ht⟩ | ⟨_, _, ht⟩ | ⟨hr, _, ht⟩
  · rcases execWord_next hu with ⟨_, rfl⟩ | ⟨i, hd, hbody, hi⟩ | ⟨_, code, _, rfl⟩
    · exact .inl ⟨le_rfl, le_rfl⟩
    · by_cases hinit : i = .init
      · subst hinit
        injection hbody with hbody
        subst hbody
        exact .inr ⟨rfl, rfl, .inl ⟨(encode_of_decode hd).symm, hb⟩⟩
      · have hrow : Row s.phase { s with moves := rest } :=
          row_of_eq rfl rfl rfl rfl rfl rfl rfl (hs.row_self fun he => hinit (hi he))
        have hge := bodyOf_counters hinit hbody hrow
        exact .inl hge
    · exact .inl ⟨le_rfl, le_rfl⟩
  · rw [ht]; exact .inl ⟨le_rfl, le_rfl⟩
  · rw [ht]; exact .inl ⟨le_rfl, le_rfl⟩
  · rw [ht]; exact .inr ⟨rfl, rfl, .inr rfl⟩
  · rw [ht, hs.held hr]; exact .inl ⟨le_rfl, le_rfl⟩

/-! No stop (R81, R220, R292) -/

/-- R220, R292: in a state of the phase invariants every word answers a next state. -/
theorem execWord_answers {s : State} (h : PhaseInv s) (c : Word) : ∃ t, execWord c s = .next t := by
  cases hd : decode c with
  | ok i =>
    rw [execWord_ok hd]
    cases he : exec i s with
    | next t => exact ⟨t, rfl⟩
    | refused r => exact absurd he (exec_not_refused i s r)
    | fault r =>
      have hi : i ≠ .init := by rintro rfl; cases he
      rw [exec_of_ne_init hi] at he
      obtain ⟨hne, hb⟩ := runCommand_fault_inv _ _ _ he
      obtain ⟨hp, hlt⟩ := bodyOf_fault hb
      have hrow := h.row_self hne
      rw [hp] at hrow
      obtain ⟨_, h16, _⟩ := hrow
      omega
  | error why =>
    rw [execWord_illegal hd]
    by_cases hp : s.phase = .error
    · exact ⟨_, runCommand_ignored _ _ _ hp⟩
    · exact ⟨_, runCommand_error _ _ _ hp rfl⟩

theorem engineTurn_answers {s : State} (h : PhaseInv s) : ∃ t, engineTurn s = .next t := by
  unfold engineTurn
  split
  · obtain ⟨t, ht⟩ := execWord_answers h s.pend
    exact ⟨_, by rw [complete, ht, clearBusy]⟩
  · exact ⟨s, rfl⟩

/-- R81: with rst_n = 1 only a misaligned access stops the machine. -/
theorem runTurn_answers {s : State} (h : PhaseInv s) (hr : s.rstN = true) (ha : Aligned s) :
    ∃ t, runTurn s = .next t := by
  unfold runTurn
  split
  case h_1 => exact engineTurn_answers h
  case h_2 rest hm => exact engineTurn_answers (h.of_same (by constructor <;> rfl) hr)
  case h_3 => exact ⟨_, rfl⟩
  case h_4 addr rest hm =>
    have hmis : misaligned addr = false := ha (.read addr) (by simp [hm])
    rw [if_neg (by simp [hmis])]
    split
    · exact engineTurn_answers h
    · exact ⟨_, rfl⟩
  case h_5 addr v rest hm =>
    have hmis : misaligned addr = false := ha (.write addr v) (by simp [hm])
    rw [if_neg (by simp [hmis])]
    split
    · exact engineTurn_answers h
    · exact ⟨_, rfl⟩

theorem resetTurn_answers {s : State} (ha : Aligned s) : ∃ t, resetTurn s = .next t := by
  unfold resetTurn
  split
  case h_1 | h_2 | h_3 => exact ⟨_, rfl⟩
  case h_4 addr rest hm =>
    have hmis : misaligned addr = false := ha (.read addr) (by simp [hm])
    exact ⟨_, if_neg (by simp [hmis])⟩
  case h_5 addr v rest hm =>
    have hmis : misaligned addr = false := ha (.write addr v) (by simp [hm])
    exact ⟨_, if_neg (by simp [hmis])⟩

/-- A step takes moves away from the front only. -/
theorem step_moves_suffix {s t : State} (h : step s = .next t) : t.moves <:+ s.moves := by
  rcases step_next h with ⟨_, _, rest, hsuf, u, hu, rfl⟩ | ⟨_, hsuf, _⟩ | ⟨_, _, hsuf, _⟩ | ⟨_, hsuf, _⟩ | ⟨_, hsuf, _⟩
  · obtain ⟨_, _, _, hmoves, _⟩ := execWord_keeps_own hu
    exact hmoves ▸ hsuf
  all_goals exact hsuf

/-- Settles O56: no turn stops, and the accesses that remain were ahead before. -/
theorem alignedStepAnswersNext : Obligations.AlignedStepAnswersNext := by
  unfold Obligations.AlignedStepAnswersNext
  intro s h ha
  have hstep : ∃ t, step s = .next t := by
    unfold step
    split
    · exact runTurn_answers h ‹_› ha
    · exact resetTurn_answers ha
  obtain ⟨t, ht⟩ := hstep
  exact ⟨t, ht, fun mv hmv => ha mv ((step_moves_suffix ht).subset hmv)⟩

/-! A computation does not read the host's side (R50, R298) -/

/-- The computation of s beside BUSY, PEND and the model's own fields of u. -/
def beside (u s : State) : State :=
  { s with busy := u.busy, pend := u.pend, rstN := u.rstN, moves := u.moves, replies := u.replies, draws := u.draws }

theorem sameComputation_beside (u s : State) : SameComputation s (beside u s) := by
  constructor <;> rfl

theorem expandSteps_beside (u : State) (n : Nat) (s : State) :
    expandSteps n (beside u s) = beside u (expandSteps n s) := by
  induction n generalizing s with
  | zero => rfl
  | succ n ih => exact ih (expandStep s)

theorem roundSteps_beside (u : State) (n : Nat) (s : State) :
    roundSteps n (beside u s) = beside u (roundSteps n s) := by
  induction n generalizing s with
  | zero => rfl
  | succ n ih => exact ih (roundStep s)

theorem closeSchedule_beside (u s : State) : closeSchedule (beside u s) = beside u (closeSchedule s) := by
  unfold closeSchedule
  rw [apply_ite (beside u)]
  rfl

theorem closeRounds_beside (u s : State) : closeRounds (beside u s) = beside u (closeRounds s) := by
  unfold closeRounds
  rw [apply_ite (beside u)]
  rfl

theorem openWork_beside (u s : State) : openWork (beside u s) = beside u (openWork s) := by
  unfold openWork
  rw [apply_ite (beside u)]
  rfl

/-- A body that reads and writes the computation only. -/
def Body.Local (body : Body) : Prop := ∀ u s, body (beside u s) = (body s).map (beside u)

theorem pushBody_local (b : Byte) : Body.Local (pushBody b) := by
  intro u s
  simp only [pushBody, apply_ite (Except.map (beside u))]
  rfl

theorem padBody_local : Body.Local padBody := by
  intro u s
  simp only [padBody, apply_ite (Except.map (beside u))]
  rfl

theorem expandBody_local (arg : Byte) : Body.Local (expandBody arg) := by
  intro u s
  simp only [expandBody, apply_ite (Except.map (beside u)), expandSteps_beside, closeSchedule_beside]
  rfl

theorem roundBody_local (arg : Byte) : Body.Local (roundBody arg) := by
  intro u s
  simp only [roundBody, apply_ite (Except.map (beside u)), openWork_beside, roundSteps_beside, closeRounds_beside]
  rfl

theorem finalBody_local : Body.Local finalBody := by
  intro u s
  simp only [finalBody, apply_ite (Except.map (beside u))]
  rfl

theorem Body.Local.bind {f g : Body} (hf : Body.Local f) (hg : Body.Local g) :
    Body.Local fun s => f s >>= g := by
  intro u s
  show f (beside u s) >>= g = (f s >>= g).map (beside u)
  rw [hf u s]
  cases f s with
  | error a => rfl
  | ok t => exact hg u t

theorem hashBody_local : Body.Local hashBody := by
  intro u s
  have hstages := padBody_local.bind ((expandBody_local 0#8).bind ((roundBody_local 0#8).bind finalBody_local)) u s
  unfold hashBody
  rw [apply_ite (Except.map (beside u))]
  exact if_congr Iff.rfl rfl hstages

theorem bodyOf_local (i : Instr) : Body.Local (bodyOf i) := by
  cases i with
  | nop => exact fun _ _ => rfl
  | init => exact fun _ _ => rfl
  | push b => exact pushBody_local b
  | pad => exact padBody_local
  | expand n => exact expandBody_local n
  | round n => exact roundBody_local n
  | final => exact finalBody_local
  | hash => exact hashBody_local

theorem runCommand_beside {c : Word} {body : Body} (hb : Body.Local body) (u : State) {s t : State}
    (h : runCommand c body s = .next t) : runCommand c body (beside u s) = .next (beside u t) := by
  rcases runCommand_next _ _ _ h with ⟨hp, rfl⟩ | ⟨hp, hok⟩ | ⟨hp, code, herr, rfl⟩
  · exact runCommand_ignored _ _ _ hp
  · exact runCommand_ok _ _ _ hp (by rw [hb u s, hok]; rfl)
  · exact runCommand_error _ _ _ hp (by rw [hb u s, herr]; rfl)

theorem execWord_beside {c : Word} (u : State) {s t : State} (h : execWord c s = .next t) :
    execWord c (beside u s) = .next (beside u t) := by
  cases hd : decode c with
  | ok i =>
    rw [execWord_ok hd] at h ⊢
    by_cases hi : i = .init
    · subst hi
      injection h with h
      rw [← h]; rfl
    · rw [exec_of_ne_init hi] at h ⊢
      exact runCommand_beside (bodyOf_local i) u h
  | error why =>
    rw [execWord_illegal hd] at h ⊢
    exact runCommand_beside (fun _ _ => rfl) u h

theorem execWords_beside (u : State) {cs : List Word} {s t : State} (h : execWords cs s = .next t) :
    execWords cs (beside u s) = .next (beside u t) := by
  induction cs generalizing s with
  | nil => injection h with h; rw [h]; rfl
  | cons c cs ih =>
    cases hc : execWord c s with
    | next v =>
      rw [execWords_cons hc] at h
      rw [execWords_cons (execWord_beside u hc)]
      exact ih h
    | fault r => simp [execWords, hc] at h
    | refused r => simp [execWords, hc] at h

theorem execWord_init (s : State) : execWord 0x01000000#32 s = .next (initState s) :=
  execWord_ok decode_initWord s

/-- Settles O57: after INIT two computations differ beside the host's side only, and no word reads that. -/
theorem initForgetsThePast : Obligations.InitForgetsThePast := by
  unfold Obligations.InitForgetsThePast
  intro cs s s' t t' h h'
  rw [execWords_cons (execWord_init s)] at h
  rw [execWords_cons (execWord_init s')] at h'
  have hrun : execWords cs (initState s') = .next (beside s' t) := execWords_beside s' (s := initState s) h
  have ht : t' = beside s' t := by
    rw [hrun] at h'
    injection h' with h'
    exact h'.symm
  exact ht ▸ sameComputation_beside s' t

/-! Launch states, reset and the idle engine (R49, R325, R361) -/

/-- Settles O45, element by element. -/
theorem stateAfterReset : Obligations.StateAfterReset := by
  unfold Obligations.StateAfterReset
  intro upper
  refine ⟨rfl, rfl, rfl, rfl, rfl, rfl, rfl, rfl, rfl, ?_, ?_⟩
  · decide
  · exact fun i => ⟨zeroSchedule_getD i.val, by rw [State.blkAt, getD_of_lt _ _ _ i.isLt]; simp [State.reset]⟩

/-- Settles O52: a state after reset is its own reset, and one after INIT is `initState` of the state before. -/
theorem launchStatesMeetInvariants : Obligations.LaunchStatesMeetInvariants := by
  unfold Obligations.LaunchStatesMeetInvariants
  refine ⟨phaseInv_of_resetEngine rfl, dataInv_of_resetEngine rfl, ?_, ?_⟩
  · rintro s ⟨hreset, _⟩
    exact dataInv_of_resetEngine hreset
  · rintro s ⟨u, hr, _, hpend, hcomplete⟩
    rw [complete, hpend, execWord_init] at hcomplete
    injection hcomplete with hcomplete
    subst hcomplete
    exact (dataInv_initState hr).of_same (by constructor <;> rfl) hr

/-- Settles O58: the engine has the turn, and with BUSY = 0 it does nothing. -/
theorem idleEngineKeepsItsState : Obligations.IdleEngineKeepsItsState := by
  unfold Obligations.IdleEngineKeepsItsState
  intro s hr hb hm
  simp [step, hr, runTurn, hm, engineTurn, hb]

end Sys2Proof.Machine
end

section
/-! PROOFS. The register space (20_memory.md): the register each address of the map has (R82), the fields of STATUS and
COUNT (R83), the reserved addresses (R85), and what a step does with a host access: performed with BUSY = 0 (R83, R84,
R86, R290), a STATUS read with BUSY = 1 (R355), refused when misaligned (R81). -/

namespace Sys2Proof.Machine

/-! The register map (R82) -/

/-- R82: the rows of the map stand in order of address and do not overlap. -/
theorem regMap_ordered : regMap.Pairwise fun row row' => row.1 + 4 * row.2.1 ≤ row'.1 := by decide

/-- R82: no address is in two rows of the map. -/
theorem eq_of_rowHolds {a : Nat} {row row' : Nat × Nat × (Nat → Reg)} (hm : row ∈ regMap) (hm' : row' ∈ regMap)
    (h : rowHolds a row = true) (h' : rowHolds a row' = true) : row = row' := by
  simp only [rowHolds, Bool.and_eq_true, decide_eq_true_eq] at h h'
  obtain ⟨i, hi, rfl⟩ := List.getElem_of_mem hm
  obtain ⟨j, hj, rfl⟩ := List.getElem_of_mem hm'
  have hordered := List.pairwise_iff_getElem.mp regMap_ordered
  rcases Nat.lt_trichotomy i j with hlt | rfl | hlt
  · have := hordered i j hi hj hlt
    omega
  · rfl
  · have := hordered j i hj hi hlt
    omega

/-- R82: register i of a row of the map is at base + 4i. -/
theorem regAt_of_row {row : Nat × Nat × (Nat → Reg)} (hm : row ∈ regMap) {i : Nat} (hi : i < row.2.1) :
    regAt (row.1 + 4 * i) = row.2.2 i := by
  have hholds : rowHolds (row.1 + 4 * i) row = true := by
    simp only [rowHolds, Bool.and_eq_true, decide_eq_true_eq]
    omega
  unfold regAt
  split
  · rename_i row' hf
    rw [eq_of_rowHolds (List.mem_of_find?_eq_some hf) hm (List.find?_some hf) hholds, Nat.add_sub_cancel_left,
      Nat.mul_div_cancel_left i (by decide)]
  · rename_i hf
    exact absurd hholds (List.find?_eq_none.mp hf row hm)

/-- R82: register i of an array of n registers, at its bus address. -/
theorem regOf_array {base n : Nat} [NeZero n] {reg : Fin n → Reg} (hm : (base, n, fun i => reg (Fin.ofNat n i)) ∈ regMap)
    (hn : base + 4 * n ≤ 4096) (i : Fin n) : regOf (BitVec.ofNat 12 (base + 4 * i.val)) = reg i := by
  rw [regOf, BitVec.toNat_ofNat, Nat.mod_eq_of_lt (by omega), regAt_of_row hm i.isLt]
  exact congrArg reg (Fin.ofNat_val_eq_self i)

@[simp] theorem regOf_cmd : regOf 0x000#12 = .cmd := by decide
@[simp] theorem regOf_status : regOf 0x004#12 = .status := by decide
@[simp] theorem regOf_msglen : regOf 0x008#12 = .msglen := by decide
@[simp] theorem regOf_errcmd : regOf 0x00C#12 = .errcmd := by decide
@[simp] theorem regOf_count : regOf 0x010#12 = .count := by decide
@[simp] theorem regOf_h (i : Fin 8) : regOf (BitVec.ofNat 12 (0x020 + 4 * i.val)) = .h i :=
  regOf_array (by simp [regMap]) (by decide) i
@[simp] theorem regOf_wv (i : Fin 8) : regOf (BitVec.ofNat 12 (0x040 + 4 * i.val)) = .wv i :=
  regOf_array (by simp [regMap]) (by decide) i
@[simp] theorem regOf_iv (i : Fin 8) : regOf (BitVec.ofNat 12 (0x060 + 4 * i.val)) = .iv i :=
  regOf_array (by simp [regMap]) (by decide) i
@[simp] theorem regOf_blk (n : Fin 16) : regOf (BitVec.ofNat 12 (0x080 + 4 * n.val)) = .blk n :=
  regOf_array (by simp [regMap]) (by decide) n
@[simp] theorem regOf_hex (n : Fin 16) : regOf (BitVec.ofNat 12 (0x0C0 + 4 * n.val)) = .hex n :=
  regOf_array (by simp [regMap]) (by decide) n
@[simp] theorem regOf_w (i : Fin 64) : regOf (BitVec.ofNat 12 (0x100 + 4 * i.val)) = .w i :=
  regOf_array (by simp [regMap]) (by decide) i
@[simp] theorem regOf_k (i : Fin 64) : regOf (BitVec.ofNat 12 (0x200 + 4 * i.val)) = .k i :=
  regOf_array (by simp [regMap]) (by decide) i

/-- R85: the two reserved ranges as bus addresses. -/
theorem regOf_reserved {addr : Addr} (h : 0x014 ≤ addr.toNat ∧ addr.toNat ≤ 0x01F ∨ 0x300 ≤ addr.toNat) :
    regOf addr = .reserved :=
  regAt_reserved _ (by omega)

/-- R82: an aligned address other than 0x000 is not CMD's. -/
theorem regOf_ne_cmd {addr : Addr} (hal : misaligned addr = false) (hne : addr ≠ 0x000#12) : regOf addr ≠ .cmd := by
  have h4 : addr.toNat % 4 = 0 := (misaligned_eq_false addr).mp hal
  have h0 : addr.toNat ≠ 0 := fun h => hne (BitVec.eq_of_toNat_eq h)
  exact regAt_ne_cmd _ (by omega)

/-- Settles O34, register by register of the map. -/
theorem registerMapReads : Obligations.RegisterMapReads := by
  unfold Obligations.RegisterMapReads
  intro upper s
  simp only [regOf_cmd, regOf_msglen, regOf_errcmd, regOf_h, regOf_wv, regOf_iv, regOf_blk, regOf_hex, regOf_w, regOf_k]
  exact ⟨rfl, rfl, rfl, fun _ => rfl, fun _ => rfl, fun _ => rfl, fun _ => rfl, fun _ => rfl, fun _ => rfl, fun _ => rfl⟩

/-! The fields of STATUS and COUNT (R83) -/

/-- R83: the fields of a word zext_32({x, y, z}). -/
theorem fields_of_zext {a b c : Nat} (x : BitVec a) (y : BitVec b) (z : BitVec c) (h : a + b + c ≤ 32) :
    ((x ++ y ++ z).setWidth 32).extractLsb' 0 c = z ∧ ((x ++ y ++ z).setWidth 32).extractLsb' c b = y ∧
    ((x ++ y ++ z).setWidth 32).extractLsb' (b + c) a = x ∧
    ((x ++ y ++ z).setWidth 32).extractLsb' (a + b + c) (32 - (a + b + c)) = 0#(32 - (a + b + c)) := by
  refine ⟨?_, ?_, ?_, ?_⟩
  · rw [BitVec.extractLsb'_setWidth_of_le (by omega), BitVec.extractLsb'_append_eq_right]
  · rw [BitVec.extractLsb'_setWidth_of_le (by omega), BitVec.extractLsb'_append_eq_of_le le_rfl, Nat.sub_self,
      BitVec.extractLsb'_append_eq_right]
  · rw [BitVec.extractLsb'_setWidth_of_le (by omega), BitVec.extractLsb'_append_eq_of_le (Nat.le_add_left c b),
      Nat.add_sub_cancel, BitVec.extractLsb'_append_eq_left]
  · ext i hi
    simp

/-- R82: the fields of STATUS. -/
theorem statusWord_fields (err : BitVec 4) (busy : Bool) (phase : BitVec 3) :
    (statusWord err busy phase).extractLsb' 0 3 = phase ∧
    (statusWord err busy phase).extractLsb' 3 1 = BitVec.ofBool busy ∧
    (statusWord err busy phase).extractLsb' 4 4 = err ∧ (statusWord err busy phase).extractLsb' 8 24 = 0#24 :=
  fields_of_zext err (BitVec.ofBool busy) phase (by decide)

/-- Settles O35: both are words of three fields. -/
theorem statusAndCountFields : Obligations.StatusAndCountFields := by
  unfold Obligations.StatusAndCountFields
  intro upper s
  rw [regOf_status, regOf_count]
  obtain ⟨hphase, hbusy, herr, hhigh⟩ := statusWord_fields s.err.code s.busy s.phase.code
  exact ⟨hphase, hbusy, herr, hhigh, fields_of_zext s.rcnt 0#1 s.scnt (by decide)⟩

/-! What a write does (R84, R85) -/

theorem hostWrite_cmd (v : Word) (s : State) : hostWrite 0x000#12 v s = issueCommand v s :=
  if_pos regOf_cmd

theorem hostWrite_of_ne_cmd {addr : Addr} (h : regOf addr ≠ .cmd) (v : Word) (s : State) : hostWrite addr v s = s :=
  if_neg h

/-- Settles O36: both ranges hold no register, so none that is read and not CMD. -/
theorem reservedAddressesReadZero : Obligations.ReservedAddressesReadZero := by
  unfold Obligations.ReservedAddressesReadZero
  intro upper s addr v h
  have hreg : regOf addr = .reserved := regOf_reserved h
  exact ⟨by rw [hreg, readReg], hostWrite_of_ne_cmd (by simp [hreg]) v s⟩

/-! A step with a host access first (R83, R84, R354) -/

/-- R83, R354: a read that does not wait is performed. -/
theorem step_read {s : State} {addr : Addr} {rest : List Move} (hr : s.rstN = true) (hm : s.moves = .read addr :: rest)
    (hal : misaligned addr = false) (hw : readWaits s addr = false) :
    step s = .next (hostRead addr { s with moves := rest }) := by
  simp [step, hr, runTurn, hm, hal, hw]

/-- R84, R354: a write with BUSY = 0 is performed. -/
theorem step_write {s : State} {addr : Addr} {v : Word} {rest : List Move} (hr : s.rstN = true) (hb : s.busy = false)
    (hm : s.moves = .write addr v :: rest) (hal : misaligned addr = false) :
    step s = .next (hostWrite addr v { s with moves := rest }) := by
  simp [step, hr, runTurn, hm, hal, writeWaits, hb]

/-- Settles O6: the write is performed, and at 0x000 it is `issueCommand`. -/
theorem writeToCmdIssuesTheWord : Obligations.WriteToCmdIssuesTheWord := by
  unfold Obligations.WriteToCmdIssuesTheWord
  intro s v rest hr hb hm
  rw [step_write hr hb hm (by decide), hostWrite_cmd, issueCommand]

/-- Settles O7: the write is performed, and only CMD's address issues a word. -/
theorem writeElsewhereHasNoEffect : Obligations.WriteElsewhereHasNoEffect := by
  unfold Obligations.WriteElsewhereHasNoEffect
  intro s addr v rest hr hb hm hal hne
  rw [step_write hr hb hm hal, hostWrite_of_ne_cmd (regOf_ne_cmd hal hne)]

/-- R83: a register's content does not depend on what the host does next. -/
theorem readReg_moves (upper : Bool) (s : State) (rest : List Move) (r : Reg) :
    readReg upper { s with moves := rest } r = readReg upper s r := by
  cases r <;> rfl

/-- R83: a read with BUSY = 0 keeps the register's content and takes no draw. -/
theorem hostRead_of_idle {s : State} (hb : s.busy = false) (addr : Addr) :
    hostRead addr s = { s with replies := s.replies ++ [⟨addr, readReg Config.hexUpper s (regOf addr)⟩] } := by
  simp [hostRead, memRead, hb]

/-- R355: a read with BUSY = 1 keeps the status word of the next draw. -/
theorem hostRead_of_busy {s : State} (hb : s.busy = true) (addr : Addr) :
    hostRead addr s = { s with replies := s.replies ++ [⟨addr, busyStatus s.draws⟩], draws := s.draws + 1 } := by
  simp [hostRead, memRead, hb]

/-- Settles O37: with BUSY = 0 the read does not wait and takes no draw. -/
theorem readReturnsRegisterAndChangesNothing : Obligations.ReadReturnsRegisterAndChangesNothing := by
  unfold Obligations.ReadReturnsRegisterAndChangesNothing
  intro s addr rest hr hb hm hal
  rw [step_read hr hm hal (by simp [readWaits, hb]), hostRead_of_idle (s := { s with moves := rest }) hb, readReg_moves]

/-- Settles O39: a STATUS read does not wait, and its value is the status word of the next draw. -/
theorem statusReadWhileBusy : Obligations.StatusReadWhileBusy := by
  unfold Obligations.StatusReadWhileBusy
  intro s rest hr hb hm
  obtain ⟨hphase, hbusy, herr, hhigh⟩ := statusWord_fields (Config.freeErr s.draws) true (Config.freePhase s.draws)
  refine ⟨busyStatus s.draws, ?_, hbusy, hhigh, hphase, herr⟩
  rw [step_read hr hm (by decide) (by simp [readWaits]), hostRead_of_busy (s := { s with moves := rest }) hb]

/-- Settles O40: each access is refused before all else, whatever the level of rst_n is. -/
theorem misalignedAccessIsRefused : Obligations.MisalignedAccessIsRefused := by
  unfold Obligations.MisalignedAccessIsRefused
  intro s addr v rest hne hm
  have hmis : misaligned addr = true := (misaligned_eq_true addr).mpr hne
  unfold step
  split
  · rcases hm with hm | hm <;> simp [runTurn, hm, hmis]
  · rcases hm with hm | hm <;> simp [resetTurn, hm, hmis]

end Sys2Proof.Machine
end

section
/-! PROOFS. The encoding (30_encoding.md): decoder and encoder (R113, R117), the well-formed words as the rows of the opcode
map (R114), the refusal of a count above the remaining steps (R112), and the words of a DIGEST line (R119). -/

namespace Sys2Proof.Machine

/-! Decoder and encoder (R113, R117) -/

theorem decode_encode (i : Instr) : decode (encode i) = .ok i := by
  cases i <;> rw [encode, decode_commandWord] <;> rfl

/-- Settles O1, both directions by the fields of a command word. -/
theorem decodeEncodeAgree : Obligations.DecodeEncodeAgree :=
  ⟨decode_encode, fun _ _ h => encode_of_decode h⟩

/-- Settles O4: the words of commands are their encodings, the others are evaluated. -/
theorem writtenWordsDecode : Obligations.WrittenWordsDecode :=
  ⟨decode_encode .nop, decode_encode .init, decode_encode (.push 0x61#8), decode_encode .pad,
    decode_encode (.expand 49#8), decode_encode (.round 64#8), decode_encode .final, decode_encode .hash,
    by decide, by decide, by decide⟩

/-! The rows of the opcode map by fields (R113, R114) -/

/-- R113: the rows of the opcode map as OP and the mask of ARG; a row's mask covers OP and RSV in full. -/
def rowFields : List (Byte × Byte) :=
  [(0x00#8, 0xFF#8), (0x01#8, 0xFF#8), (0x02#8, 0x00#8), (0x03#8, 0xFF#8),
   (0x04#8, 0x00#8), (0x05#8, 0x00#8), (0x06#8, 0xFF#8), (0x07#8, 0xFF#8)]

/-- R113: the (match, mask) row of an opcode and a mask of ARG. -/
def rowOf (f : Byte × Byte) : Word × Word := (commandWord f.1 0#8, 0xFF#8 ++ 0xFFFF#16 ++ f.2)

theorem opcodeRows_eq : opcodeRows = rowFields.map rowOf := by decide

theorem rowFields_distinct : rowFields.Pairwise fun f f' => f.1 ≠ f'.1 := by decide

/-- R111: words of three fields are equal field by field. -/
theorem append_eq_iff (op op' arg arg' : Byte) (r r' : BitVec 16) :
    (op ++ r ++ arg : Word) = op' ++ r' ++ arg' ↔ op = op' ∧ r = r' ∧ arg = arg' := by
  constructor
  · intro h
    obtain ⟨hop, hr, harg⟩ := fields_of_append op arg r
    obtain ⟨hop', hr', harg'⟩ := fields_of_append op' arg' r'
    exact ⟨by rw [← hop, h, hop'], by rw [← hr, h, hr'], by rw [← harg, h, harg']⟩
  · rintro ⟨rfl, rfl, rfl⟩
    rfl

/-- A row is selected by its opcode, RSV = 0 and an ARG whose masked bits are 0. -/
theorem selects_rowOf (c : Word) (f : Byte × Byte) :
    selects c (rowOf f) = true ↔ opOf c = f.1 ∧ rsvOf c = 0#16 ∧ argOf c &&& f.2 = 0#8 := by
  have hmasked : c &&& (0xFF#8 ++ 0xFFFF#16 ++ f.2) = opOf c ++ rsvOf c ++ (argOf c &&& f.2) :=
    calc c &&& (0xFF#8 ++ 0xFFFF#16 ++ f.2)
        = (opOf c ++ rsvOf c ++ argOf c) &&& (0xFF#8 ++ 0xFFFF#16 ++ f.2) := by
          rw [opOf, rsvOf, argOf, ← commandWord_split]
      _ = (opOf c &&& BitVec.allOnes 8) ++ (rsvOf c &&& BitVec.allOnes 16) ++ (argOf c &&& f.2) := by
          rw [BitVec.and_append, BitVec.and_append]; rfl
      _ = opOf c ++ rsvOf c ++ (argOf c &&& f.2) := by rw [BitVec.and_allOnes, BitVec.and_allOnes]
  simp only [selects, rowOf, beq_iff_eq, hmasked, commandWord, append_eq_iff]

/-- R114: the checks on OP and ARG, as one row of the map. -/
theorem opcode_and_arg_allowed_iff (op arg : Byte) :
    (op.toNat ≤ 0x07 ∧ (arg = 0#8 ∨ op = 0x02#8 ∨ op = 0x04#8 ∨ op = 0x05#8)) ↔
      ∃ f ∈ rowFields, op = f.1 ∧ arg &&& f.2 = 0#8 := by
  have hfull : arg &&& 0xFF#8 = arg := BitVec.and_allOnes
  have hnone : arg &&& 0x00#8 = 0#8 := BitVec.and_zero
  simp only [rowFields, List.mem_cons, List.not_mem_nil, or_false, or_and_right, exists_or, exists_eq_left,
    hfull, hnone, and_true, ← BitVec.toNat_inj, BitVec.toNat_ofNat]
  omega

/-- R114: a well-formed word by its fields. -/
theorem wellFormed_iff_rowFields (c : Word) :
    wellFormed c = true ↔ rsvOf c = 0#16 ∧ ∃ f ∈ rowFields, opOf c = f.1 ∧ argOf c &&& f.2 = 0#8 := by
  rw [← opcode_and_arg_allowed_iff]
  simp only [wellFormed, opcodeKnown, reservedZero, argAllowed, opOf, rsvOf, argOf, Bool.and_eq_true, Bool.or_eq_true,
    decide_eq_true_eq, beq_iff_eq, List.contains_iff_mem, List.mem_cons, List.not_mem_nil, or_false]
  tauto

/-- Settles O2: by the fields, and two rows never have one opcode. -/
theorem wellFormedIffSelectsRow : Obligations.WellFormedIffSelectsRow := by
  unfold Obligations.WellFormedIffSelectsRow
  simp only [opcodeRows_eq, List.mem_map, exists_exists_and_eq_and, List.pairwise_map, selects_rowOf]
  constructor
  · intro c
    rw [wellFormed_iff_rowFields]
    constructor
    · rintro ⟨hrsv, f, hf, hop, harg⟩
      exact ⟨f, hf, hop, hrsv, harg⟩
    · rintro ⟨f, hf, hop, hrsv, harg⟩
      exact ⟨hrsv, f, hf, hop, harg⟩
  · refine rowFields_distinct.imp fun hne c => ?_
    rintro ⟨⟨hop, _⟩, hop', _⟩
    exact hne (hop.symm.trans hop')

/-- R114: the word of every command is well-formed. -/
theorem encode_wellFormed (i : Instr) : wellFormed (encode i) = true := by
  cases i with
  | nop => exact Laws.EncodeWellFormed.nop
  | init => exact Laws.EncodeWellFormed.init
  | push byte => exact Laws.EncodeWellFormed.push byte
  | pad => exact Laws.EncodeWellFormed.pad
  | expand arg => exact Laws.EncodeWellFormed.expand arg
  | round arg => exact Laws.EncodeWellFormed.round arg
  | final => exact Laws.EncodeWellFormed.final
  | hash => exact Laws.EncodeWellFormed.hash

/-- R115: a word that is not well-formed is illegal, since only words of commands decode. -/
theorem decode_of_not_wellFormed {c : Word} (h : wellFormed c = false) : ∃ why, decode c = .error why := by
  cases hd : decode c with
  | error why => exact ⟨why, rfl⟩
  | ok i =>
    rw [← encode_of_decode hd, encode_wellFormed] at h
    cases h

/-- Settles O3: a well-formed word is one of the eight rows, and in each the decoder is evaluated. -/
theorem decoderFollowsOpcode : Obligations.DecoderFollowsOpcode := by
  unfold Obligations.DecoderFollowsOpcode
  refine fun c => ⟨decode_of_not_wellFormed, fun hwf => ?_⟩
  obtain ⟨hrsv, f, hf, hop, harg⟩ := (wellFormed_iff_rowFields c).mp hwf
  rw [decode, if_pos hrsv, ← opOf, ← argOf, hop]
  have hzero (h : argOf c &&& 0xFF#8 = 0#8) : argOf c = 0#8 := BitVec.and_allOnes.symm.trans h
  simp only [rowFields, List.mem_cons, List.not_mem_nil, or_false] at hf
  rcases hf with rfl | rfl | rfl | rfl | rfl | rfl | rfl | rfl
  · rw [hzero harg]; rfl
  · rw [hzero harg]; rfl
  · rfl
  · rw [hzero harg]; rfl
  · rfl
  · rfl
  · rw [hzero harg]; rfl
  · rw [hzero harg]; rfl

/-! A count above the remaining steps (R112, R221, R243) -/

theorem remaining_lt_count {arg : Byte} {d : BitVec 7} (h : 64 - d.toNat < arg.toNat) : remaining d < count arg d := by
  have harg : arg ≠ 0#8 := by rintro rfl; simp at h
  rw [remaining_eq, count_of_ne_zero harg]
  exact h

theorem expandBody_badCount {arg : Byte} {s : State} (hp : s.phase = .padded) (h : 64 - s.scnt.toNat < arg.toNat) :
    expandBody arg s = .error (.error .badCount) := by
  simp [expandBody, hp, remaining_lt_count h]

theorem roundBody_badCount {arg : Byte} {s : State} (hp : s.phase = .expanded ∨ s.phase = .compress)
    (h : 64 - s.rcnt.toNat < arg.toNat) : roundBody arg s = .error (.error .badCount) := by
  rcases hp with hp | hp <;> simp [roundBody, hp, remaining_lt_count h]

/-- Settles O22: the body answers BAD_COUNT, and the error entry is all that `exec` commits. -/
theorem countAboveRemainingIsRefused : Obligations.CountAboveRemainingIsRefused := by
  unfold Obligations.CountAboveRemainingIsRefused
  refine fun arg s => ⟨fun hp hc => ?_, fun hp hc => ?_⟩
  · exact runCommand_error _ _ _ (by simp [hp]) (expandBody_badCount hp hc)
  · exact runCommand_error _ _ _ (by rcases hp with hp | hp <;> simp [hp]) (roundBody_badCount hp hc)

/-! The words of a DIGEST line (R119) -/

/-- R119: PUSHS of characters that are bytes is one PUSH each, in order. -/
theorem pushText_ok {cs : List Char} (h : ∀ c ∈ cs, c.toNat ≤ 255) :
    pushText cs = .ok (cs.map fun c => issue (.push (BitVec.ofNat 8 c.toNat))) := by
  induction cs with
  | nil => rfl
  | cons c cs ih =>
    obtain ⟨hc, hcs⟩ := List.forall_mem_cons.mp h
    have hb : byteOf c.toNat = .ok (BitVec.ofNat 8 c.toNat) := if_pos hc
    rw [pushText, hb, ih hcs]
    rfl

/-- Settles O59: the pushes by induction on the text, between INIT and HASH. -/
theorem digestPseudoAssembles : Obligations.DigestPseudoAssembles := by
  unfold Obligations.DigestPseudoAssembles
  intro cs h
  have hline : assembleTokens [.word ['D', 'I', 'G', 'E', 'S', 'T'], .text cs] =
      (pushText cs).map fun ps => issue .init :: ps ++ [issue .hash] := rfl
  rw [hline, pushText_ok h]
  rfl

end Sys2Proof.Machine
end

section
/-! PROOFS. Rotate, shift, the mixing functions, choose and majority, bit by bit (R145 to R152), and the laws of rotate
right (R154). -/

namespace Sys2Proof.Machine

/-- R154: two rotations that make a full turn together give the word back. -/
theorem rotr_rotr_of_full_turn (x : Word) {m n : Nat} (hm : m ≤ 31) (hn : n ≤ 31) (h : m + n = 32) :
    rotr (rotr x m) n = x := by
  refine BitVec.eq_of_getLsbD_eq fun i hi => ?_
  have hturn : ((i + n) % 32 + m) % 32 = i := by omega
  rw [rotr_getLsbD _ _ _ hn hi, rotr_getLsbD _ _ _ hm (Nat.mod_lt _ (by decide)), hturn]

/-- Settles O49: a rotation by 0 is the word itself, and n places and 32 - n places make a full turn. -/
theorem rotateRightLaws : Obligations.RotateRightLaws := by
  unfold Obligations.RotateRightLaws
  exact ⟨fun _ => rfl, fun x n h1 h31 => rotr_rotr_of_full_turn x h31 (by omega) (by omega)⟩

/-- R145, by value. -/
theorem shr_toNat (x : Word) (n : Nat) : (shr x n).toNat = x.toNat / 2 ^ n := by
  rw [shr, BitVec.toNat_ushiftRight, Nat.shiftRight_eq_div_pow]

/-! The mixing functions (R147 to R150): bit i is the exclusive or of three bits of x, rule by rule from `rotr_getLsbD`
and `shr_getLsbD`. -/

section mixing
variable (x : Word) {i : Nat}

theorem upperS0_getLsbD (hi : i < 32) : (upperS0 x).getLsbD i =
    (x.getLsbD ((i + 2) % 32) ^^ x.getLsbD ((i + 13) % 32) ^^ x.getLsbD ((i + 22) % 32)) := by
  simp only [upperS0, BitVec.getLsbD_xor, rotr_getLsbD, hi, Nat.reduceLeDiff]

theorem upperS1_getLsbD (hi : i < 32) : (upperS1 x).getLsbD i =
    (x.getLsbD ((i + 6) % 32) ^^ x.getLsbD ((i + 11) % 32) ^^ x.getLsbD ((i + 25) % 32)) := by
  simp only [upperS1, BitVec.getLsbD_xor, rotr_getLsbD, hi, Nat.reduceLeDiff]

theorem lowerS0_getLsbD (hi : i < 32) : (lowerS0 x).getLsbD i =
    (x.getLsbD ((i + 7) % 32) ^^ x.getLsbD ((i + 18) % 32) ^^ (decide (i + 3 < 32) && x.getLsbD (i + 3))) := by
  simp only [lowerS0, BitVec.getLsbD_xor, rotr_getLsbD, shr_getLsbD, hi, Nat.reduceLeDiff]

theorem lowerS1_getLsbD (hi : i < 32) : (lowerS1 x).getLsbD i =
    (x.getLsbD ((i + 17) % 32) ^^ x.getLsbD ((i + 19) % 32) ^^ (decide (i + 10 < 32) && x.getLsbD (i + 10))) := by
  simp only [lowerS1, BitVec.getLsbD_xor, rotr_getLsbD, shr_getLsbD, hi, Nat.reduceLeDiff]

end mixing

/-- R151: bit i of x chooses between bit i of y and bit i of z. -/
theorem ch_getLsbD (x y z : Word) {i : Nat} (hi : i < 32) :
    (ch x y z).getLsbD i = if x.getLsbD i then y.getLsbD i else z.getLsbD i := by
  have hbits : (ch x y z).getLsbD i = ((x.getLsbD i && y.getLsbD i) ^^ (!x.getLsbD i && z.getLsbD i)) := by
    simp [ch, hi]
  rw [hbits]
  cases x.getLsbD i <;> simp

/-- R152: bit i of maj counts the bits i of its operands. -/
theorem maj_getLsbD (x y z : Word) (i : Nat) : (maj x y z).getLsbD i =
    decide (2 ≤ (x.getLsbD i).toNat + (y.getLsbD i).toNat + (z.getLsbD i).toNat) := by
  have hcount : ∀ a b c : Bool, ((a && b) ^^ (a && c) ^^ (b && c)) = decide (2 ≤ a.toNat + b.toNat + c.toNat) := by
    decide
  rw [← hcount, maj, BitVec.getLsbD_xor, BitVec.getLsbD_xor, BitVec.getLsbD_and, BitVec.getLsbD_and, BitVec.getLsbD_and]

/-- Settles O50, each primitive by its own rule. -/
theorem primitivesBitByBit : Obligations.PrimitivesBitByBit := by
  unfold Obligations.PrimitivesBitByBit
  exact fun x y z n ⟨i, hi⟩ hn => ⟨rotr_getLsbD x n i hn hi, shr_toNat x n, upperS0_getLsbD x hi, upperS1_getLsbD x hi,
    lowerS0_getLsbD x hi, lowerS1_getLsbD x hi, ch_getLsbD x y z hi, maj_getLsbD x y z i⟩

end Sys2Proof.Machine
end

section
/-! PROOFS. The generation rule of the constants: trial division lists the primes in order (R170), the integer roots are
the fractional bits of the real roots (R171 to R173), and the ROMs hold them (R175, R176). -/

namespace Sys2Proof.Machine

/-! Trial division (R170). The number of primes below n, `n.count Nat.Prime`, is the place of the search in
the sequence of the primes. -/

/-- R170: where the candidates n .. n + fuel - 1 hold `amount` primes, the search lists the next `amount` primes in
order. -/
theorem primesFrom_eq_map_nth {fuel n amount : Nat} (hn : 2 ≤ n)
    (henough : n.count Nat.Prime + amount ≤ (n + fuel).count Nat.Prime) :
    primesFrom fuel n amount = (List.range amount).map fun j => Nat.nth Nat.Prime (n.count Nat.Prime + j) := by
  induction fuel generalizing n amount with
  | zero =>
    obtain rfl : amount = 0 := by simpa using henough
    rfl
  | succ fuel ih =>
    cases amount with
    | zero => rfl
    | succ amount =>
      have hcount := Nat.count_succ Nat.Prime n
      rw [show n + (fuel + 1) = n + 1 + fuel by omega] at henough
      rw [primesFrom]
      by_cases hp : n.Prime
      · rw [if_pos hp] at hcount
        rw [if_pos ((noDivisor_iff_prime hn).mpr hp), ih (by omega) (by omega), hcount, List.range_succ_eq_map]
        simp [Nat.nth_count hp, Nat.add_assoc, Nat.add_comm 1]
      · rw [if_neg hp] at hcount
        rw [if_neg (mt (noDivisor_iff_prime hn).mp hp), ih (by omega) (by omega), hcount, Nat.add_zero]

/-- R170: the candidates 2 .. amount^2 + 2 hold `amount` primes. From amount 18 on they reach 311, the 64th prime. -/
theorem candidates_hold_amount_primes {amount : Nat} (h : amount ≤ 64) :
    amount ≤ (2 + (amount * amount + 1)).count Nat.Prime := by
  have hsmall : ∀ a < 18, a ≤ (2 + (a * a + 1)).count Nat.Prime := by decide +kernel
  have hlarge : 64 ≤ (312).count Nat.Prime := by decide +kernel
  by_cases h18 : amount < 18
  · exact hsmall amount h18
  · calc amount ≤ 64 := h
      _ ≤ (312).count Nat.Prime := hlarge
      _ ≤ (2 + (amount * amount + 1)).count Nat.Prime := Nat.count_monotone _ (by nlinarith)

/-- Settles O46: the search starts at the first prime and its candidates suffice. -/
theorem primesAreTheFirstPrimes : Obligations.PrimesAreTheFirstPrimes := by
  unfold Obligations.PrimesAreTheFirstPrimes
  intro amount h
  have hnone : (2).count Nat.Prime = 0 := by decide
  have henough : (2).count Nat.Prime + amount ≤ (2 + (amount * amount + 1)).count Nat.Prime := by
    rw [hnone, Nat.zero_add]
    exact candidates_hold_amount_primes h
  rw [primes, primesFrom_eq_map_nth le_rfl henough, hnone]
  simp only [Nat.zero_add]

/-- R170: the prime that R171 and R172 call prime i. -/
theorem primes_getD {amount i : Nat} (h : amount ≤ 64) (hi : i < amount) :
    (primes amount).getD i 0 = Nat.nth Nat.Prime i := by
  rw [primesAreTheFirstPrimes amount h]
  simp [hi]

/-! Integer roots and real roots (R171 to R173) -/

/-- The fractional part of x, scaled by m, has the floor of x * m modulo m. -/
theorem floor_fract_mul {x : ℝ} (hx : 0 ≤ x) {m : Nat} (hm : m ≠ 0) : ⌊Int.fract x * m⌋₊ = ⌊x * m⌋₊ % m := by
  have hfract : Int.fract x * m = x * m - (m * ⌊x⌋₊ : Nat) := by
    rw [← Int.self_sub_floor, ← natCast_floor_eq_intCast_floor hx]
    push_cast
    ring
  have hfloor : ⌊x⌋₊ = ⌊x * m⌋₊ / m := by
    rw [← Nat.floor_div_natCast, mul_div_cancel_right₀ _ (Nat.cast_ne_zero.mpr hm)]
  rw [hfract, Nat.floor_sub_natCast, hfloor, Nat.mod_def]

/-- The root taken bit by bit is the floor of the real root. -/
theorem rootBits_log2_eq_floor {e n : Nat} (he : 1 ≤ e) {y : ℝ} (hy : 0 ≤ y) (hpow : y ^ e = n) :
    rootBits e n (n.log2 + 1) 0 = ⌊y⌋₊ := by
  have he0 : e ≠ 0 := by omega
  obtain ⟨hle, hlt⟩ := rootBits_log2 e n he
  symm
  rw [Nat.floor_eq_iff hy, ← pow_le_pow_iff_left₀ (Nat.cast_nonneg _) hy he0,
    ← pow_lt_pow_iff_left₀ hy (by positivity) he0, hpow]
  exact ⟨mod_cast hle, mod_cast hlt⟩

/-- R173 against R171 and R172: for the e-th root x of p, the integer root of p * 2^(32e) gives the first 32 fractional
bits of x. -/
theorem rootBits_log2_mod_eq_floor_fract {e p : Nat} (he : 1 ≤ e) {x : ℝ} (hx : 0 ≤ x) (hpow : x ^ e = p) {n : Nat}
    (hn : n = p * (2 ^ 32) ^ e) : rootBits e n (n.log2 + 1) 0 % 2 ^ 32 = ⌊Int.fract x * 2 ^ 32⌋₊ := by
  have hscaled : (x * (2 ^ 32 : Nat)) ^ e = (n : ℝ) := by
    rw [mul_pow, hpow, hn, Nat.cast_mul, Nat.cast_pow (2 ^ 32)]
  rw [rootBits_log2_eq_floor he (by positivity) hscaled, ← floor_fract_mul hx (by positivity), Nat.cast_pow,
    Nat.cast_ofNat]

/-- R171 for every p: R173's integer square root. -/
theorem ivOfPrime_toNat (p : Nat) : (ivOfPrime p).toNat = ⌊Int.fract (Real.sqrt p) * 2 ^ 32⌋₊ := by
  have hsquare : Real.sqrt p ^ 2 = p := Real.sq_sqrt (Nat.cast_nonneg _)
  rw [ivOfPrime, BitVec.toNat_ofNat, isqrt]
  exact rootBits_log2_mod_eq_floor_fract (by decide) (Real.sqrt_nonneg _) hsquare (by rw [← pow_mul])

/-- R172 for every p: R173's integer cube root. -/
theorem kOfPrime_toNat (p : Nat) : (kOfPrime p).toNat = ⌊Int.fract ((p : ℝ) ^ (1 / 3 : ℝ)) * 2 ^ 32⌋₊ := by
  have hcube : ((p : ℝ) ^ (1 / 3 : ℝ)) ^ 3 = p := by
    rw [one_div]
    exact Real.rpow_inv_natCast_pow (Nat.cast_nonneg _) (by decide : 3 ≠ 0)
  rw [kOfPrime, BitVec.toNat_ofNat, icbrt]
  exact rootBits_log2_mod_eq_floor_fract (by decide) (by positivity) hcube (by rw [← pow_mul])

/-! The ROMs -/

/-- R175: the ROM's word, evaluated by R173's rule. -/
theorem ivAt_eq_ivOfPrime : ∀ i < 8, ivAt i = ivOfPrime ((primes 8).getD i 0) := by decide +kernel

/-- R176: the ROM's word, evaluated by R173's rule. -/
theorem kAt_eq_kOfPrime : ∀ i < 64, kAt i = kOfPrime ((primes 64).getD i 0) := by decide +kernel

/-- Settles O47: the word is the rule's for prime i, and the rule gives the bits of the square root. -/
theorem ivRomHoldsSquareRoots : Obligations.IvRomHoldsSquareRoots := by
  unfold Obligations.IvRomHoldsSquareRoots
  intro i hi
  rw [ivAt_eq_ivOfPrime i hi, primes_getD (by omega) hi, ivOfPrime_toNat]

/-- Settles O48: the word is the rule's for prime i, and the rule gives the bits of the cube root. -/
theorem kRomHoldsCubeRoots : Obligations.KRomHoldsCubeRoots := by
  unfold Obligations.KRomHoldsCubeRoots
  intro i hi
  rw [kAt_eq_kOfPrime i hi, primes_getD (by omega) hi, kOfPrime_toNat]

end Sys2Proof.Machine
end

section
/-! PROOFS. The preprocessor (42_preprocessor.md): PUSH (R191), the padding of a message of any length (R192), the bytes
of the length field and of the padded block (R192, R194), PAD (R196), and the padding check (R193). -/

namespace Sys2Proof.Machine

/-- R113: the one word of a command. -/
theorem decode_eq_ok_iff {c : Word} {i : Instr} : decode c = .ok i ↔ c = encode i :=
  ⟨fun h => (encode_of_decode h).symm, fun h => h ▸ decode_encode i⟩

/-! PUSH (R191) -/

theorem pushBody_full {b : Byte} {s : State} (hp : s.phase = .load) (hm : s.msglen = 55#6) :
    pushBody b s = .error (.error .msgTooLong) := by
  simp [pushBody, hp, hm]

theorem pushBody_outside_load {b : Byte} {s : State} (hp : s.phase ≠ .load) :
    pushBody b s = .error (.error .sequence) := by
  simp [pushBody, hp]

/-- Settles O11: what PUSH's body answers in each case, as `exec` commits it. -/
theorem pushAppendsOneByte : Obligations.PushAppendsOneByte := by
  unfold Obligations.PushAppendsOneByte
  refine fun b s => ⟨fun c => decode_eq_ok_iff, fun hp hm => ?_, fun hp hm => ?_, fun hp he => ?_, fun he => ?_⟩
  · have hne : s.msglen ≠ 55#6 := fun h => by simp [h] at hm
    refine ⟨_, runCommand_ok _ _ _ (by simp [hp]) (pushBody_ok b s hp hne), ?_, fun j hj => ?_, ?_, rfl⟩
    · rw [State.blkAt, getD_setIfInBounds, if_pos ⟨rfl, by omega⟩]
    · rw [State.blkAt, getD_setIfInBounds, if_neg fun h => hj h.1.symm, State.blkAt]
    · bv_omega
  · exact runCommand_error _ _ _ (by simp [hp]) (pushBody_full hp hm)
  · exact runCommand_error _ _ _ he (pushBody_outside_load hp)
  · exact runCommand_ignored _ _ _ he

/-! The padding of a message of any length (R192) -/

theorem pad_length (m : List Byte) : (pad m).length = m.length + 9 + zeroCount m.length := by
  simp only [pad, List.length_append, List.length_replicate, be64_length, List.length_singleton]
  omega

/-- R192: the zeros fill the last block up to its length field. -/
theorem zeroCount_spec (n : Nat) : (n + 9 + zeroCount n) % 64 = 0 ∧ zeroCount n < 64 := by
  unfold zeroCount
  omega

/-- R192: the bytes between 0x80 and the length field. -/
theorem pad_getD_zeros {m : List Byte} {j : Nat} (h : m.length < j) (hj : j < m.length + 1 + zeroCount m.length)
    (d : Byte) : (pad m).getD j d = 0#8 := by
  have hstart : (m ++ [0x80#8]).length = m.length + 1 := by simp
  rw [pad, List.getD_append _ _ _ _ (by simp; omega), List.getD_append_right _ _ _ _ (by omega), hstart,
    List.getD_replicate _ (by omega)]

/-- R192: the last eight bytes are the length field. -/
theorem drop_pad (m : List Byte) : (pad m).drop ((pad m).length - 8) = be64 (bitLength m.length) := by
  refine List.drop_left' ?_
  simp only [pad, List.length_append, be64_length, Nat.add_sub_cancel]

/-- Settles O51: the length and the zeros by the choice of z, the last bytes as the length field. -/
theorem paddingOfAnyLength : Obligations.PaddingOfAnyLength := by
  unfold Obligations.PaddingOfAnyLength
  intro m
  obtain ⟨hmod, hlt⟩ := zeroCount_spec m.length
  have hlen := pad_length m
  refine ⟨by rw [hlen, hmod], by omega, by omega, ⟨_, (List.append_assoc _ _ _).symm⟩,
    fun j hj hj8 => pad_getD_zeros hj (by omega) _, ?_⟩
  rw [drop_pad, be64_value, bitLength, BitVec.toNat_ofNat]

/-! The bytes of the padded block (R192, R194) -/

/-- R192: byte i of the length field. -/
theorem be64_getD_toNat (l : BitVec 64) {i : Nat} (h : i < 8) :
    ((be64 l).getD i 0#8).toNat = l.toNat / 2 ^ (56 - 8 * i) % 256 := by
  interval_cases i <;> simp [be64, BitVec.extractLsb'_toNat, Nat.shiftRight_eq_div_pow]

/-- R194: on a message of one block the length field has two bytes that can be other than 0. -/
theorem be64_bitLength_high {n i : Nat} (hn : n ≤ 55) (hi : i < 6) : (be64 (bitLength n)).getD i 0#8 = 0#8 := by
  have hsmall : (bitLength n).toNat < 2 ^ (56 - 8 * i) := by
    have hpow : 2 ^ 16 ≤ 2 ^ (56 - 8 * i) := Nat.pow_le_pow_right (by decide) (by omega)
    rw [bitLength, BitVec.toNat_ofNat]
    omega
  apply BitVec.eq_of_toNat_eq
  rw [be64_getD_toNat _ (by omega), Nat.div_eq_of_lt hsmall]
  rfl

theorem be64_bitLength_low {n : Nat} (hn : n ≤ 55) :
    256 * ((be64 (bitLength n)).getD 6 0#8).toNat + ((be64 (bitLength n)).getD 7 0#8).toNat = 8 * n := by
  rw [be64_getD_toNat _ (by decide), be64_getD_toNat _ (by decide), bitLength, BitVec.toNat_ofNat]
  omega

theorem paddedState_blkAt (s : State) {j : Nat} (h : j < 64) :
    (paddedState s).blkAt j = padByte s.blk s.msglen.toNat j :=
  padBlock_getD _ _ _ h

/-! PAD (R196) -/

/-- R196: PAD in LOAD as `exec` commits it. -/
theorem exec_pad {s : State} (hp : s.phase = .load) (hm : s.msglen.toNat ≤ 55) :
    exec .pad s = .next (paddedState s) :=
  runCommand_ok _ _ _ (by simp [hp]) (padBody_ok s hp hm)

theorem padBody_outside_load {s : State} (hp : s.phase ≠ .load) : padBody s = .error (.error .sequence) := by
  simp [padBody, hp]

/-- R196: the first sixteen words PAD leaves, from the bytes of its block. -/
theorem paddedState_wAt_first (s : State) {j : Nat} (h : j < 16) :
    (paddedState s).wAt j = pack4 ((paddedState s).blkAt (4 * j)) ((paddedState s).blkAt (4 * j + 1))
      ((paddedState s).blkAt (4 * j + 2)) ((paddedState s).blkAt (4 * j + 3)) := by
  rw [State.wAt, paddedState, loadSchedule_getD, if_pos h]
  rfl

/-- R196: "W[16..63] are not written". -/
theorem paddedState_wAt_rest (s : State) {i : Nat} (h : 16 ≤ i) : (paddedState s).wAt i = s.wAt i := by
  rw [State.wAt, paddedState, loadSchedule_getD, if_neg (by omega), State.wAt]

/-- Settles O13: in LOAD the state PAD leaves, element by element; elsewhere the error its body answers. -/
theorem padFormsBlockAndSchedule : Obligations.PadFormsBlockAndSchedule := by
  unfold Obligations.PadFormsBlockAndSchedule
  refine ⟨fun c => decode_eq_ok_iff, fun s => ⟨fun hp hm => ?_, fun hp he => ?_⟩⟩
  · exact ⟨paddedState s, exec_pad hp hm, rfl, rfl, padBlock_toList s hm, fun j hj => paddedState_wAt_first s hj,
      fun i hi => paddedState_wAt_rest s hi, rfl⟩
  · exact runCommand_error _ _ _ he (padBody_outside_load hp)

/-- Settles O14: the byte rule of the padded block on each range of R194's table. -/
theorem paddedBlockLayout : Obligations.PaddedBlockLayout := by
  unfold Obligations.PaddedBlockLayout
  intro s t hp hm h
  obtain rfl : paddedState s = t := by
    rw [exec_pad hp hm] at h
    injection h
  refine ⟨fun j hj => ?_, ?_, fun j hj hj56 => ?_, fun j hj hj62 => ?_, ?_⟩
  · rw [paddedState_blkAt s (by omega), padByte, if_neg (by omega), if_neg (by omega), if_neg (by omega), State.blkAt]
  · rw [paddedState_blkAt s (by omega), padByte, if_neg (by omega), if_neg (by omega), if_pos rfl]
  · rw [paddedState_blkAt s (by omega), padByte, if_neg (by omega), if_pos hj]
  · rw [paddedState_blkAt s (by omega), padByte, if_pos hj, be64_bitLength_high hm (by omega)]
  · rw [paddedState_blkAt s (by decide), paddedState_blkAt s (by decide), padByte, padByte, if_pos (by decide),
      if_pos (by decide)]
    exact be64_bitLength_low hm

/-! The padding check (R193) -/

/-- R193: with MSGLEN in its range no command raises PADDING_INVARIANT. -/
theorem exec_err_ne_paddingInvariant {i : Instr} {s t : State} (hm : s.msglen.toNat ≤ 55)
    (he : s.err ≠ .paddingInvariant) (h : exec i s = .next t) : t.err ≠ .paddingInvariant := by
  rcases exec_next h with ⟨_, rfl⟩ | ⟨hb, _⟩ | ⟨_, code, hb, rfl⟩
  · exact he
  · by_cases hi : i = .init
    · subst hi
      injection hb with hb
      rw [← hb, initState_err]
      decide
    · obtain ⟨herr, _⟩ := bodyOf_keeps_error_record hi hb
      rwa [herr]
  · obtain ⟨_, hcode, _⟩ := raised_code hm (.inr ⟨i, hb⟩)
    exact hcode

/-- Settles O15: of PAD and HASH as of every command. -/
theorem paddingCheckNeverFails : Obligations.PaddingCheckNeverFails := by
  unfold Obligations.PaddingCheckNeverFails
  rintro s t hm he (h | h)
  · exact exec_err_ne_paddingInvariant hm he h
  · exact exec_err_ne_paddingInvariant hm he h

end Sys2Proof.Machine
end

section
/-! PROOFS. The Schedule Expander (43_schedule.md): EXPAND as `exec` commits it (R220, R221), the splits of a count
(R221, R222), and the model's fault for a schedule that was never loaded (log entry 7). -/

namespace Sys2Proof.Machine

theorem expandSteps_phase (n : Nat) (s : State) : (expandSteps n s).phase = s.phase := by
  rw [expandSteps_frame]

/-- R221: PHASE leaves PADDED exactly when SCNT has reached 64. -/
theorem closeSchedule_phase (s : State) :
    (closeSchedule s).phase = if s.scnt.toNat = 64 then .expanded else s.phase := by
  have h64 : s.scnt = 64#7 ↔ s.scnt.toNat = 64 := BitVec.toNat_inj.symm
  rw [closeSchedule, apply_ite State.phase]
  simp only [h64]

theorem closeSchedule_of_scnt_lt {s : State} (h : s.scnt.toNat < 64) : closeSchedule s = s := by
  rw [closeSchedule, if_neg]
  intro h64
  simp [h64] at h

/-- R221: EXPAND of a count that remains, as `exec` commits it. -/
theorem exec_expand {arg : Byte} {s : State} (hp : s.phase = .padded) (h16 : 16 ≤ s.scnt.toNat)
    (hc : count arg s.scnt ≤ remaining s.scnt) :
    exec (.expand arg) s = .next (closeSchedule (expandSteps (count arg s.scnt) s)) :=
  runCommand_ok _ _ _ (by simp [hp]) (expandBody_ok arg s hp h16 hc)

/-- Settles O16: the expansion steps write the words and count them, the close sets PHASE. -/
theorem expandComputesScheduleWords : Obligations.ExpandComputesScheduleWords := by
  unfold Obligations.ExpandComputesScheduleWords
  intro arg s hp h16 h63 harg
  have hc : count arg s.scnt ≤ remaining s.scnt := count_le harg
  have hn : s.scnt.toNat + count arg s.scnt ≤ 64 := by rw [remaining_eq] at hc; omega
  have hscnt := expandSteps_scnt_toNat _ s hn
  refine ⟨_, count arg s.scnt, exec_expand hp h16 hc, rfl, ?_, fun i hl hu => ?_, fun i hi => ?_, ?_, ?_⟩
  · rw [closeSchedule_scnt, hscnt]
  · simp only [closeSchedule_wAt]
    exact expandSteps_wAt_new _ s i h16 hn hl hu
  · rw [closeSchedule_wAt, expandSteps_wAt_other _ s i hn hi]
  · rw [closeSchedule_phase, hscnt, expandSteps_phase, hp]
  · exact expandBody_frame (expandBody_ok arg s hp h16 hc)

/-! Splits of a count (R221, R222) -/

/-- R221: EXPAND of fewer steps than remain leaves the state after its steps, still PADDED. -/
theorem exec_expand_part {p : Byte} {s : State} (hp : s.phase = .padded) (h16 : 16 ≤ s.scnt.toNat) (hp0 : p ≠ 0#8)
    (hpart : p.toNat < 64 - s.scnt.toNat) : exec (.expand p) s = .next (expandSteps p.toNat s) := by
  have hscnt := expandSteps_scnt_toNat p.toNat s (by omega)
  rw [exec_expand hp h16 (count_le hpart.le), count_of_ne_zero hp0, closeSchedule_of_scnt_lt (by omega)]

/-- R221, R222: once n steps are done, an EXPAND whose count is what another leaves over answers as that other does. -/
theorem exec_expand_after_steps {n : Nat} {rest whole : Byte} {s : State} (hp : s.phase = .padded)
    (h16 : 16 ≤ s.scnt.toNat) (hn : n < 64 - s.scnt.toNat) (hwhole : count whole s.scnt ≤ remaining s.scnt)
    (hsum : count whole s.scnt = n + count rest (expandSteps n s).scnt) :
    exec (.expand rest) (expandSteps n s) = exec (.expand whole) s := by
  have hscnt := expandSteps_scnt_toNat n s (by omega)
  have hrest : count rest (expandSteps n s).scnt ≤ remaining (expandSteps n s).scnt := by
    rw [remaining_eq] at hwhole ⊢
    omega
  rw [exec_expand (by rw [expandSteps_phase, hp]) (by omega) hrest, exec_expand hp h16 hwhole, hsum, expandSteps_add]

/-- Settles O17: in both splits the second count is what the first leaves over. -/
theorem expandSplitsAgree : Obligations.ExpandSplitsAgree := by
  unfold Obligations.ExpandSplitsAgree
  refine fun p q r s hp h16 _ hp0 hq0 => ⟨fun hpart => ?_, fun hr hle => ?_⟩
  · refine ⟨_, exec_expand_part hp h16 hp0 hpart, exec_expand_after_steps hp h16 hpart (count_le (by simp)) ?_⟩
    rw [count_of_zero, count_of_zero, expandSteps_scnt_toNat _ _ (by omega)]
    omega
  · have hq : q.toNat ≠ 0 := fun h => hq0 (BitVec.eq_of_toNat_eq h)
    have hr0 : r ≠ 0#8 := by rintro rfl; simp at hr; omega
    have hpart : p.toNat < 64 - s.scnt.toNat := by omega
    refine ⟨_, exec_expand_part hp h16 hp0 hpart, exec_expand_after_steps hp h16 hpart (count_le hle) ?_⟩
    rw [count_of_ne_zero hr0, count_of_ne_zero hq0, hr]

/-! The schedule not loaded (log entry 7) -/

theorem expandBody_unloaded {arg : Byte} {s : State} (hp : s.phase = .padded) (h16 : s.scnt.toNat < 16)
    (hc : count arg s.scnt ≤ remaining s.scnt) : expandBody arg s = .error (.fault .scheduleNotLoaded) := by
  simp [expandBody, hp, Nat.not_lt.mpr hc, h16]

/-- Settles O18: the body's fault passes through `exec`. -/
theorem expandBelowSixteenFaults : Obligations.ExpandBelowSixteenFaults := by
  unfold Obligations.ExpandBelowSixteenFaults
  exact fun arg s hp h16 harg => runCommand_fault _ _ _ (by simp [hp]) (expandBody_unloaded hp h16 (count_le harg))

end Sys2Proof.Machine
end

section
/-! PROOFS. The Compressor (44_compressor.md): ROUND as `exec` commits it (R242, R243), one round (R240), and the splits
of a count (R243, R244). -/

namespace Sys2Proof.Machine

theorem roundSteps_phase (n : Nat) (s : State) : (roundSteps n s).phase = s.phase := by
  rw [roundSteps_frame]

/-- R243: PHASE becomes COMPRESSED exactly when RCNT has reached 64. -/
theorem closeRounds_phase (s : State) :
    (closeRounds s).phase = if s.rcnt.toNat = 64 then .compressed else s.phase := by
  have h64 : s.rcnt = 64#7 ↔ s.rcnt.toNat = 64 := BitVec.toNat_inj.symm
  rw [closeRounds, apply_ite State.phase]
  simp only [h64]

theorem closeRounds_of_rcnt_lt {s : State} (h : s.rcnt.toNat < 64) : closeRounds s = s := by
  rw [closeRounds, if_neg]
  intro h64
  simp [h64] at h

/-- R242: the eight words of H as a..h. -/
theorem workOf_eq (s : State) :
    workOf s.h = ⟨s.hAt 0, s.hAt 1, s.hAt 2, s.hAt 3, s.hAt 4, s.hAt 5, s.hAt 6, s.hAt 7⟩ := by
  simp [workOf, State.hAt, getD_of_lt]

/-- R242: the rounds start from H on the first ROUND only. -/
theorem openWork_wv (s : State) :
    (openWork s).wv = if s.phase = .expanded then
      ⟨s.hAt 0, s.hAt 1, s.hAt 2, s.hAt 3, s.hAt 4, s.hAt 5, s.hAt 6, s.hAt 7⟩ else s.wv := by
  rw [openWork, apply_ite State.wv, loadWorking_wv, workOf_eq]

theorem openWork_wAt (s : State) (i : Nat) : (openWork s).wAt i = s.wAt i := by
  rw [State.wAt, openWork_w, State.wAt]

/-- R243: ROUND of a count that remains, as `exec` commits it. -/
theorem exec_round {arg : Byte} {s : State} (hp : s.phase = .expanded ∨ s.phase = .compress)
    (hc : count arg s.rcnt ≤ remaining s.rcnt) :
    exec (.round arg) s = .next (closeRounds (roundSteps (count arg s.rcnt) (openWork s))) :=
  runCommand_ok _ _ _ (by rcases hp with hp | hp <;> simp [hp]) (roundBody_ok arg s hp hc)

/-- Settles O20: the load gives the first working state, the round steps fold over it, the close sets PHASE. -/
theorem roundRunsTheRounds : Obligations.RoundRunsTheRounds := by
  unfold Obligations.RoundRunsTheRounds
  intro arg s hp h63 harg
  have hc : count arg s.rcnt ≤ remaining s.rcnt := count_le harg
  have hn : (openWork s).rcnt.toNat + count arg s.rcnt ≤ 64 := by rw [remaining_eq] at hc; rw [openWork_rcnt]; omega
  have hrcnt := roundSteps_rcnt_toNat _ (openWork s) hn
  have hwv := roundSteps_wv _ (openWork s) hn
  rw [openWork_rcnt] at hrcnt hwv
  refine ⟨_, count arg s.rcnt, exec_round hp hc, rfl, ?_, ?_, ?_, ?_⟩
  · rw [closeRounds_rcnt, hrcnt]
  · simp only [closeRounds_wv, hwv, openWork_wAt, openWork_wv]
  · rw [closeRounds_phase, hrcnt, roundSteps_phase, openWork_phase hp]
  · exact roundBody_frame (roundBody_ok arg s hp hc)

/-- Settles O19: ROUND 1 runs the one round RCNT from the current working state. -/
theorem oneRoundUpdatesWorkingState : Obligations.OneRoundUpdatesWorkingState := by
  unfold Obligations.OneRoundUpdatesWorkingState
  intro s hp h63
  obtain ⟨t, n, ht, hn, hrcnt, hwv, hphase, hframe⟩ :=
    roundRunsTheRounds 1#8 s (.inr hp) h63 (by simp; omega)
  obtain rfl : n = 1 := hn
  have hlast : s.rcnt.toNat + 1 = 64 ↔ s.rcnt.toNat = 63 := by omega
  refine ⟨t, _, _, ht, rfl, rfl, ?_, hrcnt, ?_, hframe⟩
  · rw [hwv, if_neg (by simp [hp])]
    rfl
  · rw [hphase]
    simp only [hlast]

/-! Splits of a count (R243, R244) -/

/-- R243: ROUND of fewer rounds than remain leaves the state after its rounds, in COMPRESS. -/
theorem exec_round_part {p : Byte} {s : State} (hp : s.phase = .expanded ∨ s.phase = .compress) (hp0 : p ≠ 0#8)
    (hpart : p.toNat < 64 - s.rcnt.toNat) : exec (.round p) s = .next (roundSteps p.toNat (openWork s)) := by
  have hrcnt := roundSteps_rcnt_toNat p.toNat (openWork s) (by rw [openWork_rcnt]; omega)
  rw [openWork_rcnt] at hrcnt
  rw [exec_round hp (count_le hpart.le), count_of_ne_zero hp0, closeRounds_of_rcnt_lt (by omega)]

/-- R242, R243: once n rounds are done, a ROUND whose count is what another leaves over answers as that other does,
since it does not load H again. -/
theorem exec_round_after_rounds {n : Nat} {rest whole : Byte} {s : State}
    (hp : s.phase = .expanded ∨ s.phase = .compress) (hn : n < 64 - s.rcnt.toNat)
    (hwhole : count whole s.rcnt ≤ remaining s.rcnt)
    (hsum : count whole s.rcnt = n + count rest (roundSteps n (openWork s)).rcnt) :
    exec (.round rest) (roundSteps n (openWork s)) = exec (.round whole) s := by
  have hcompress : (roundSteps n (openWork s)).phase = .compress := by rw [roundSteps_phase, openWork_phase hp]
  have hrcnt := roundSteps_rcnt_toNat n (openWork s) (by rw [openWork_rcnt]; omega)
  have hrest : count rest (roundSteps n (openWork s)).rcnt ≤ remaining (roundSteps n (openWork s)).rcnt := by
    rw [openWork_rcnt] at hrcnt
    rw [remaining_eq] at hwhole ⊢
    omega
  rw [exec_round (.inr hcompress) hrest, openWork_of_compress hcompress, exec_round hp hwhole, hsum, roundSteps_add]

/-- Settles O21: in both splits the second count is what the first leaves over. -/
theorem roundSplitsAgree : Obligations.RoundSplitsAgree := by
  unfold Obligations.RoundSplitsAgree
  refine fun p q r s hp _ hp0 hq0 => ⟨fun hpart => ?_, fun hr hle => ?_⟩
  · refine ⟨_, exec_round_part hp hp0 hpart, exec_round_after_rounds hp hpart (count_le (by simp)) ?_⟩
    rw [count_of_zero, count_of_zero, roundSteps_rcnt_toNat _ _ (by rw [openWork_rcnt]; omega), openWork_rcnt]
    omega
  · have hq : q.toNat ≠ 0 := fun h => hq0 (BitVec.eq_of_toNat_eq h)
    have hr0 : r ≠ 0#8 := by rintro rfl; simp at hr; omega
    have hpart : p.toNat < 64 - s.rcnt.toNat := by omega
    refine ⟨_, exec_round_part hp hp0 hpart, exec_round_after_rounds hp hpart (count_le hle) ?_⟩
    rw [count_of_ne_zero hr0, count_of_ne_zero hq0, hr]

end Sys2Proof.Machine
end

section
/-! PROOFS. The Finalizer (45_finalizer.md): FINAL as `exec` commits it (R270), the codes of the hex digits (R272), the
digest's text (R273), and the HEX registers (R274). -/

namespace Sys2Proof.Machine

/-! FINAL (R270) -/

/-- R270: each word of H with its own word of WV. -/
theorem foldWork_getD (h : Vector Word 8) (v : WorkVars) (i : Fin 8) :
    (foldWork h v).getD i.val 0#32 = h.getD i.val 0#32 + v.at i := by
  rw [getD_of_lt _ _ _ i.isLt, getD_of_lt _ _ _ i.isLt]
  fin_cases i <;> rfl

/-- R270: FINAL in COMPRESSED as `exec` commits it. -/
theorem exec_final {s : State} (hp : s.phase = .compressed) :
    exec .final s = .next { s with h := foldWork s.h s.wv, phase := .done } :=
  runCommand_ok _ _ _ (by simp [hp]) (finalBody_ok s hp)

theorem finalBody_outside_compressed {s : State} (hp : s.phase ≠ .compressed) :
    finalBody s = .error (.error .sequence) := by
  simp [finalBody, hp]

/-- Settles O23: in COMPRESSED the state FINAL leaves, word by word of H; elsewhere the error its body answers. -/
theorem finalFoldsWorkingState : Obligations.FinalFoldsWorkingState := by
  unfold Obligations.FinalFoldsWorkingState
  refine ⟨fun c => decode_eq_ok_iff, fun s => ⟨fun hp => ?_, fun hp he => ?_⟩⟩
  · refine ⟨_, exec_final hp, rfl, fun i => ?_, rfl⟩
    rw [State.hAt, foldWork_getD, BitVec.toNat_add, State.hAt]
  · exact runCommand_error _ _ _ he (finalBody_outside_compressed hp)

/-! The hex digits (R272) -/

/-- R272: `0x30 + v` up to 9, and from 10 on the letter `v - 10` places after `a` or `A`. -/
theorem hexDigit_toNat (upper : Bool) (v : BitVec 4) :
    (hexDigit upper v).toNat =
      if v.toNat ≤ 9 then 0x30 + v.toNat else (if upper then 0x41 else 0x61) + (v.toNat - 10) := by
  unfold hexDigit
  split_ifs <;> bv_omega

/-- Settles O41, on each range of the digit's value. -/
theorem hexDigitCodes : Obligations.HexDigitCodes := by
  unfold Obligations.HexDigitCodes
  refine fun v => ⟨fun hv upper => ?_, fun hv => ⟨?_, ?_⟩⟩
  · rw [hexDigit_toNat, if_pos hv]
  · rw [hexDigit_toNat, if_neg (by omega), if_neg (by decide)]
  · rw [hexDigit_toNat, if_neg (by omega), if_pos rfl]

/-- R272: no digit is the byte 0. -/
theorem hexDigit_ne_zero (upper : Bool) (v : BitVec 4) : hexDigit upper v ≠ 0#8 := by
  intro h
  have hcode := hexDigit_toNat upper v
  rw [h, BitVec.toNat_ofNat] at hcode
  split_ifs at hcode <;> omega

/-! The digest's text (R273) -/

theorem hex8_length (upper : Bool) (x : Word) : (hex8 upper x).length = 8 := rfl

/-- R273: the digits of a word are its nibbles, most significant first. -/
theorem hex8_getD (upper : Bool) (x : Word) {k : Nat} (hk : k < 8) :
    (hex8 upper x).getD k 0#8 = hexDigit upper (x.extractLsb' (28 - 4 * k) 4) := by
  interval_cases k <;> rfl

/-- A read of a text of blocks of one length. -/
theorem flatMap_getD {α β : Type} {f : α → List β} {n : Nat} (hf : ∀ x, (f x).length = n) (d : β) {k : Nat}
    (hk : k < n) {l : List α} {i : Nat} (hi : i < l.length) : (l.flatMap f).getD (n * i + k) d = (f l[i]).getD k d := by
  induction l generalizing i with
  | nil => simp at hi
  | cons x l ih =>
    rw [List.flatMap_cons]
    cases i with
    | zero => rw [Nat.mul_zero, Nat.zero_add, List.getD_append _ _ _ _ (by rw [hf]; exact hk), List.getElem_cons_zero]
    | succ i =>
      have hi' : i < l.length := by simpa using hi
      have hskip : n * (i + 1) + k - n = n * i + k := by rw [Nat.mul_succ]; omega
      rw [List.getD_append_right _ _ _ _ (by rw [hf, Nat.mul_succ]; omega), hf, hskip, ih hi', List.getElem_cons_succ]

/-- R273: the text is the digits of the eight words of H in order. -/
theorem digestText_eq_flatMap (upper : Bool) (h : Vector Word 8) :
    digestText upper h = (List.finRange 8).flatMap fun i => hex8 upper h[i] := by
  have hrange : List.finRange 8 = [0, 1, 2, 3, 4, 5, 6, 7] := by decide
  simp only [hrange, List.flatMap_cons, List.flatMap_nil, List.append_nil, digestText, List.append_assoc]
  rfl

/-- R273: D[j] is the digit of nibble j mod 8 of H[j / 8]. -/
theorem digestText_getD (upper : Bool) (h : Vector Word 8) {j : Nat} (hj : j < 64) :
    (digestText upper h).getD j 0#8 =
      hexDigit upper ((h.getD (j / 8) 0#32).extractLsb' (28 - 4 * (j % 8)) 4) := by
  have hk : j % 8 < 8 := Nat.mod_lt _ (by decide)
  have hi : j / 8 < 8 := by omega
  have hread := flatMap_getD (fun i : Fin 8 => hex8_length upper h[i]) 0#8 hk
    (show j / 8 < (List.finRange 8).length by simpa using hi)
  rw [Nat.div_add_mod, ← digestText_eq_flatMap, hex8_getD _ _ hk, List.getElem_finRange] at hread
  rw [hread, getD_of_lt _ _ _ hi]
  rfl

/-! The HEX registers (R274) -/

/-- R274: the first byte packed is the most significant. -/
theorem pack4_extractLsb' (b : Nat → Byte) (k : Fin 4) :
    (pack4 (b 0) (b 1) (b 2) (b 3)).extractLsb' (24 - 8 * k.val) 8 = b k.val := by
  rw [pack4]
  match k with
  | 0 =>
    rw [BitVec.extractLsb'_append_eq_of_le (by decide), BitVec.extractLsb'_append_eq_of_le (by decide)]
    exact BitVec.extractLsb'_append_eq_left
  | 1 =>
    rw [BitVec.extractLsb'_append_eq_of_le (by decide), BitVec.extractLsb'_append_eq_of_le (by decide)]
    exact BitVec.extractLsb'_append_eq_right
  | 2 =>
    rw [BitVec.extractLsb'_append_eq_of_le (by decide)]
    exact BitVec.extractLsb'_append_eq_right
  | 3 => exact BitVec.extractLsb'_append_eq_right

theorem hexReg_of_ne_done {upper : Bool} {s : State} (hp : s.phase ≠ .done) (n : Nat) : hexReg upper s n = 0#32 :=
  if_neg hp

/-- R273, R274: in DONE, byte k of HEXn is D[4n + k]. -/
theorem hexReg_byte {upper : Bool} {s : State} (hp : s.phase = .done) (n : Fin 16) (k : Fin 4) :
    (hexReg upper s n.val).extractLsb' (24 - 8 * k.val) 8 =
      hexDigit upper
        ((s.hAt ((4 * n.val + k.val) / 8)).extractLsb' (28 - 4 * ((4 * n.val + k.val) % 8)) 4) := by
  have hpack := pack4_extractLsb' (fun k => (digestText upper s.h).getD (4 * n.val + k) 0#8) k
  rw [hexReg, if_pos hp, State.hAt, ← digestText_getD upper s.h (by omega)]
  exact hpack

/-- Settles O42: in DONE byte by byte of the text, elsewhere by the gate. -/
theorem hexRegistersSpellTheDigest : Obligations.HexRegistersSpellTheDigest := by
  unfold Obligations.HexRegistersSpellTheDigest
  exact fun upper s n => ⟨fun hp k => hexReg_byte hp n k, fun hp => hexReg_of_ne_done hp n.val⟩

/-- Settles O43: outside DONE the gate gives 0, and in DONE the first byte is a digit. -/
theorem hexIsGatedToDone : Obligations.HexIsGatedToDone := by
  unfold Obligations.HexIsGatedToDone
  refine fun upper s n => ⟨fun hne => ?_, fun hp hzero => ?_⟩
  · by_contra hp
    exact hne (hexReg_of_ne_done hp n.val)
  · have hbyte := hexReg_byte (upper := upper) hp n 0
    rw [hzero, BitVec.extractLsb'_zero] at hbyte
    exact hexDigit_ne_zero _ _ hbyte.symm

end Sys2Proof.Machine
end

section
/-! PROOFS. Control (46_control.md): the engine's turn (R291), the completion of a command in flight (R350, R358), NOP
(R294), INIT (R295), HASH as its four stages (R296), the legality table (R293), illegal words (R297), and the run of a
host that writes the words of a message (R298, R360). -/

namespace Sys2Proof.Machine

/-! The engine's turn (R291) -/

/-- R291, R354: with BUSY = 1 the engine completes the command, in whichever way it has the turn. -/
theorem step_of_engineHasTurn {s : State} {rest : List Move} (hr : s.rstN = true) (hb : s.busy = true)
    (h : EngineHasTurn s rest) : step s = complete { s with moves := rest } := by
  have hturn : runTurn s = engineTurn { s with moves := rest } := by
    rcases h with ⟨hm, hrest⟩ | hm | ⟨rfl, addr, later, hm, hal, hreg⟩ | ⟨rfl, addr, v, later, hm, hal⟩
    · obtain rfl : rest = s.moves := hrest.trans hm.symm
      have hstays : runTurn s = engineTurn s := by simp [runTurn, hm]
      exact hstays
    · simp [runTurn, hm]
    · have hwaits : runTurn s = engineTurn s := by simp [runTurn, hm, hal, readWaits, hb, hreg]
      exact hwaits
    · have hwaits : runTurn s = engineTurn s := by simp [runTurn, hm, hal, writeWaits, hb]
      exact hwaits
  rw [step, if_pos hr, hturn]
  exact if_pos hb

/-- Settles O5: the turn is `complete`, and the word in PEND decodes or not. -/
theorem stepRunsDecodedCommand : Obligations.StepRunsDecodedCommand := by
  unfold Obligations.StepRunsDecodedCommand
  intro s rest hr hb hturn
  rw [step_of_engineHasTurn hr hb hturn, complete]
  exact ⟨fun _ hd => congrArg clearBusy (execWord_ok hd _), fun _ hd => congrArg clearBusy (execWord_illegal hd _)⟩

/-! NOP and INIT (R294, R295) -/

theorem exec_nop (s : State) : exec .nop s = .next s := by
  rw [exec_of_ne_init (by decide)]
  by_cases hp : s.phase = .error
  · exact runCommand_ignored _ _ _ hp
  · exact runCommand_ok _ _ _ hp rfl

/-- Settles O9: NOP has one word, and its body answers the state it is given. -/
theorem nopChangesNothing : Obligations.NopChangesNothing :=
  ⟨fun _ => decode_eq_ok_iff, exec_nop⟩

/-- Settles O10: the state is `initState`, whose arrays are read element by element. -/
theorem initOpensComputation : Obligations.InitOpensComputation := by
  unfold Obligations.InitOpensComputation
  refine ⟨fun _ => decode_eq_ok_iff, fun s =>
    ⟨initState s, exec_init s, rfl, rfl, rfl, rfl, rfl, rfl, ?_, ?_, ?_, ?_, rfl⟩⟩
  · obtain ⟨_, _, _, _, hblk, _⟩ := init_row s
    exact fun j hj => hblk j (Nat.zero_le j) hj
  · exact fun i _ => zeroSchedule_getD i
  · intro i
    fin_cases i <;> rfl
  · exact fun _ _ => rfl

/-! HASH (R296) -/

/-- R221: EXPAND 0 does all the steps that remain. -/
theorem expandBody_zero_phase {s t : State} (h : expandBody 0#8 s = .ok t) (hle : s.scnt.toNat ≤ 64) :
    t.phase = .expanded := by
  obtain ⟨_, _, hc, rfl⟩ := expandBody_inv h
  rw [closeSchedule_phase, expandSteps_scnt_toNat _ _ (by omega), count_of_zero, if_pos (by omega)]

/-- R243: ROUND 0 does all the rounds that remain. -/
theorem roundBody_zero_phase {s t : State} (h : roundBody 0#8 s = .ok t) (hle : s.rcnt.toNat ≤ 64) :
    t.phase = .compressed := by
  obtain ⟨_, hc, rfl⟩ := roundBody_inv h
  rw [closeRounds_phase, roundSteps_rcnt_toNat _ _ (by rw [openWork_rcnt]; omega), openWork_rcnt, count_of_zero,
    if_pos (by omega)]

/-- R296: with no round done, each stage of the pipeline finds the phase it needs. -/
theorem pipeline_stages {s : State} (hp : s.phase = .load) (hm : s.msglen.toNat ≤ 55) (hr : s.rcnt = 0#7) :
    ∃ p e c t, padBody s = .ok p ∧ expandBody 0#8 p = .ok e ∧ roundBody 0#8 e = .ok c ∧ finalBody c = .ok t ∧
      p.phase = .padded ∧ e.phase = .expanded ∧ c.phase = .compressed ∧ t.phase = .done := by
  obtain ⟨e, he⟩ : ∃ e, expandBody 0#8 (paddedState s) = .ok e :=
    ⟨_, expandBody_ok 0#8 (paddedState s) rfl (by simp [paddedState]) (count_le (by simp))⟩
  have hexp : e.phase = .expanded := expandBody_zero_phase he (by simp [paddedState])
  have hrcnt : e.rcnt = 0#7 := by rw [expandBody_frame he]; exact hr
  obtain ⟨c, hc⟩ : ∃ c, roundBody 0#8 e = .ok c := ⟨_, roundBody_ok 0#8 e (.inl hexp) (count_le (by simp))⟩
  have hcomp : c.phase = .compressed := roundBody_zero_phase hc (by simp [hrcnt])
  exact ⟨_, e, c, _, padBody_ok s hp hm, he, hc, finalBody_ok c hcomp, rfl, hexp, hcomp, rfl⟩

theorem hashBody_outside_load {s : State} (hp : s.phase ≠ .load) : hashBody s = .error (.error .sequence) :=
  if_pos hp

/-- Settles O24: the four stages answer, `exec` commits each, and HASH answers the last. -/
theorem hashIsThePipeline : Obligations.HashIsThePipeline := by
  unfold Obligations.HashIsThePipeline
  refine ⟨fun _ => decode_eq_ok_iff, fun s => ⟨fun hp hm hr => ?_, fun hp he => ?_⟩⟩
  · obtain ⟨p, e, c, t, hpad, hexpand, hround, hfinal, hpp, hpe, hpc, hpt⟩ := pipeline_stages hp hm hr
    have hhash : hashBody s = .ok t := hashBody_ok hp hpad hexpand hround hfinal
    exact ⟨p, e, c, t, runCommand_ok _ _ _ (by simp [hp]) hpad, runCommand_ok _ _ _ (by simp [hpp]) hexpand,
      runCommand_ok _ _ _ (by simp [hpe]) hround, runCommand_ok _ _ _ (by simp [hpc]) hfinal,
      runCommand_ok _ _ _ (by simp [hp]) hhash, hpt⟩
  · exact runCommand_error _ _ _ he (hashBody_outside_load hp)

/-! The legality table (R293) and illegal words (R297) -/

theorem expandBody_outside_padded {arg : Byte} {s : State} (hp : s.phase ≠ .padded) :
    expandBody arg s = .error (.error .sequence) :=
  if_pos hp

theorem roundBody_outside_rounds {arg : Byte} {s : State} (hp : s.phase ≠ .expanded ∧ s.phase ≠ .compress) :
    roundBody arg s = .error (.error .sequence) :=
  if_pos hp

/-- R293: a command in a "SEQ" cell answers SEQUENCE. -/
theorem bodyOf_of_not_legal {i : Instr} {s : State} (h : legal i s.phase = false) :
    bodyOf i s = .error (.error .sequence) := by
  cases i with
  | nop => cases h
  | init => cases h
  | push b => exact pushBody_outside_load (beq_eq_false_iff_ne.mp h)
  | pad => exact padBody_outside_load (beq_eq_false_iff_ne.mp h)
  | expand arg => exact expandBody_outside_padded (beq_eq_false_iff_ne.mp h)
  | round arg =>
    obtain ⟨hexp, hcomp⟩ := Bool.or_eq_false_iff.mp h
    exact roundBody_outside_rounds ⟨beq_eq_false_iff_ne.mp hexp, beq_eq_false_iff_ne.mp hcomp⟩
  | final => exact finalBody_outside_compressed (beq_eq_false_iff_ne.mp h)
  | hash => exact hashBody_outside_load (beq_eq_false_iff_ne.mp h)

/-- R293, R48: a command in an "ok" cell answers no SEQUENCE. -/
theorem bodyOf_error_ne_sequence {i : Instr} {s : State} {code : ErrCode} (h : bodyOf i s = .error (.error code))
    (hlegal : legal i s.phase = true) (hrow : Row s.phase s) : code ≠ .sequence := by
  cases i with
  | nop => cases h
  | init => cases h
  | push b =>
    rcases pushBody_error h with ⟨hp, _⟩ | ⟨rfl, _⟩
    · exact absurd (eq_of_beq hlegal) hp
    · decide
  | pad =>
    rcases padBody_error h with ⟨hp, _⟩ | ⟨rfl, _⟩
    · exact absurd (eq_of_beq hlegal) hp
    · decide
  | expand arg =>
    rcases expandBody_error h with ⟨hp, _⟩ | ⟨rfl, _⟩
    · exact absurd (eq_of_beq hlegal) hp
    · decide
  | round arg =>
    rcases roundBody_error h with ⟨hp, _⟩ | ⟨rfl, _⟩
    · exact absurd ((Bool.or_eq_true_iff.mp hlegal).imp eq_of_beq eq_of_beq) hp
    · decide
  | final => exact absurd (eq_of_beq hlegal) (finalBody_error h).1
  | hash =>
    have hload : s.phase = .load := eq_of_beq hlegal
    rcases hashBody_error h with ⟨hp, _⟩ | ⟨rfl, _⟩ | ⟨_, hgt⟩
    · exact absurd hload hp
    · decide
    · rw [hload] at hrow
      obtain ⟨_, _, hr0, _⟩ := hrow
      simp [hr0] at hgt

/-- R220, R292: in a state of the phase invariants every command answers a next state. -/
theorem exec_answers {s : State} (h : PhaseInv s) (i : Instr) : ∃ t, exec i s = .next t := by
  rw [← execWord_ok (decode_encode i)]
  exact execWord_answers h (encode i)

/-- R293: an "ok" cell runs its rule. -/
theorem exec_of_legal {i : Instr} {s : State} (hp : s.phase ≠ .error) (hlegal : legal i s.phase = true)
    (hs : PhaseInv s) :
    ∃ t, exec i s = .next t ∧ t.err ≠ .sequence ∧
      (bodyOf i s = .ok t ∨
        ∃ code, bodyOf i s = .error (.error code) ∧ code ≠ .sequence ∧ t = raiseError code (encode i) s) := by
  obtain ⟨t, ht⟩ := exec_answers hs i
  refine ⟨t, ht, ?_⟩
  rcases exec_next ht with ⟨he, _⟩ | ⟨hb, _⟩ | ⟨_, code, hb, rfl⟩
  · exact absurd he hp
  · refine ⟨?_, .inl hb⟩
    by_cases hi : i = .init
    · subst hi
      injection hb with hb
      rw [← hb, initState_err]
      decide
    · rw [(bodyOf_keeps_error_record hi hb).1, (hs.no_error hp).1]
      decide
  · have hcode := bodyOf_error_ne_sequence hb hlegal (hs.row_self hp)
    exact ⟨hcode, .inr ⟨code, hb, hcode, rfl⟩⟩

/-- R297: an illegal word raises ILLEGAL_CMD. -/
theorem execWord_not_wellFormed {c : Word} {s : State} (h : wellFormed c = false) (hp : s.phase ≠ .error) :
    execWord c s = .next (raiseError .illegalCmd c s) := by
  obtain ⟨why, hd⟩ := decode_of_not_wellFormed h
  rw [execWord_illegal hd]
  exact runCommand_error _ _ _ hp rfl

/-- R297, R315: in ERROR an illegal word is ignored. -/
theorem execWord_not_wellFormed_ignored {c : Word} {s : State} (h : wellFormed c = false) (hp : s.phase = .error) :
    execWord c s = .next s := by
  obtain ⟨why, hd⟩ := decode_of_not_wellFormed h
  rw [execWord_illegal hd]
  exact runCommand_ignored _ _ _ hp

/-- Settles O28: such a word decodes to no command, so the frame around the illegal-word rule decides. -/
theorem illegalWordRaisesIllegalCmd : Obligations.IllegalWordRaisesIllegalCmd :=
  fun _ _ h => ⟨execWord_not_wellFormed h, execWord_not_wellFormed_ignored h⟩

/-- Settles O27, row by row: SEQ cells, ok cells, ERROR, INIT in ERROR, illegal words. -/
theorem legalityTableHolds : Obligations.LegalityTableHolds := by
  unfold Obligations.LegalityTableHolds
  refine fun i s => ⟨fun hp hseq => ?_, exec_of_legal, fun hp hi => ?_, fun _ => ?_, fun c hwf => ?_⟩
  · have hi : i ≠ .init := by rintro rfl; cases hseq
    rw [exec_of_ne_init hi]
    exact runCommand_error _ _ _ hp (bodyOf_of_not_legal hseq)
  · rw [exec_of_ne_init hi]
    exact runCommand_ignored _ _ _ hp
  · exact ⟨initState s, exec_init s, rfl, rfl⟩
  · by_cases hp : s.phase = .error
    · exact ⟨s, execWord_not_wellFormed_ignored hwf hp, fun hne => absurd hp hne, fun _ => rfl⟩
    · exact ⟨_, execWord_not_wellFormed hwf hp, fun _ => ⟨rfl, rfl⟩, fun he => absurd he hp⟩

/-! The digest in DONE (R298) -/

/-- Settles O55: in DONE all 64 rounds are done, and H is their fold. -/
theorem doneHoldsTheDigest : Obligations.DoneHoldsTheDigest := by
  unfold Obligations.DoneHoldsTheDigest
  intro s hs hp
  have hrow := hs.phases.row_self (by simp [hp])
  rw [hp] at hrow
  obtain ⟨_, _, hr64, hh⟩ := hrow
  have hwork : s.wv = workAfter 64 (scheduleOf s.message) := by simpa [hr64] using hs.work
  rw [hh, hwork, sha256]

/-! Runs (R291, R358, R360) -/

theorem run_succ {s t : State} (h : step s = .next t) (k : Nat) : core.run (k + 1) s = core.run k t := by
  have hstep : core.step s = .next t := h
  simp only [Host.Core.run, hstep]

theorem busy_of_complete {s t : State} (h : complete s = .next t) : t.busy = false := by
  obtain ⟨u, _, rfl⟩ := clearBusy_next h
  rfl

/-- Settles O8, by induction on the moves that stand: a step completes the command, takes a move and keeps the command,
or takes rst_n to 0. -/
theorem busyCommandCompletes : Obligations.BusyCommandCompletes := by
  unfold Obligations.BusyCommandCompletes
  intro s
  induction hn : s.moves.length using Nat.strong_induction_on generalizing s with
  | _ n ih =>
    subst hn
    intro hs ha hr hb
    obtain ⟨t, ht, hat⟩ := alignedStepAnswersNext s hs ha
    rcases step_busy hr hb ht with ⟨rest, hcomplete⟩ | ⟨mv, hm, hframe⟩ | ⟨rest, hm, hidle⟩
    · exact ⟨1, by omega, t, run_succ ht 0, busy_of_complete hcomplete, fun _ => ⟨_, rfl, hcomplete⟩⟩
    · have hlen : s.moves.length = t.moves.length + 1 := by rw [hm, List.length_cons]
      have hrt : t.rstN = true := by rw [hframe]; exact hr
      have hbt : t.busy = true := by rw [hframe]; exact hb
      have hst : PhaseInv t := stepKeepsPhaseInvariants s t hs ht
      obtain ⟨k, hk, u, hrun, hbu, hcomplete⟩ := ih t.moves.length (by omega) t rfl hst hat hrt hbt
      refine ⟨k + 1, by omega, u, (run_succ ht k).trans hrun, hbu, fun hno => ?_⟩
      obtain ⟨v, hv, hcv⟩ := hcomplete fun hmem => hno (hm ▸ List.mem_cons_of_mem mv hmem)
      exact ⟨v, hv.trans (by rw [hframe]), hcv⟩
    · exact ⟨1, by omega, t, run_succ ht 0, hidle, fun hno => absurd (hm ▸ List.mem_cons_self) hno⟩

/-! A host that writes words to CMD (R298, R353, R360) -/

theorem execWords_append {cs : List Word} {s t : State} (h : execWords cs s = .next t) (ds : List Word) :
    execWords (cs ++ ds) s = execWords ds t := by
  induction cs generalizing s with
  | nil => injection h with h; rw [h, List.nil_append]
  | cons c cs ih =>
    cases hc : execWord c s with
    | next v =>
      rw [execWords_cons hc] at h
      rw [List.cons_append, execWords_cons hc, ih h]
    | fault r => simp [execWords, hc] at h
    | refused r => simp [execWords, hc] at h

/-- R291: of a host that writes one word after another to CMD, the next write waits while the engine completes. -/
theorem engineHasTurn_of_writes {s : State} {cs : List Word} (hm : s.moves = cs.map (Move.write 0x000#12)) :
    EngineHasTurn s (cs.map (Move.write 0x000#12)) := by
  cases cs with
  | nil => exact .inl ⟨hm, rfl⟩
  | cons c cs => exact .inr (.inr (.inr ⟨hm, _, _, _, rfl, by decide⟩))

/-- R291: the completion of a word does to the computation what the word does to it beside any host. -/
theorem complete_beside {u s t : State} (h : execWord u.pend s = .next t) :
    complete (beside u s) = .next (beside { u with busy := false } t) := by
  have hexec : execWord (beside u s).pend (beside u s) = .next (beside u t) := execWord_beside u h
  rw [complete, hexec]
  rfl

/-- The state with the word c written to CMD, in flight or not, and the words cs still to be written. -/
def writing (inFlight : Bool) (c : Word) (cs : List Word) (s : State) : State :=
  { s with pend := c, busy := inFlight, moves := cs.map (Move.write 0x000#12) }

/-- R290, R291: with no command in flight, a word written to CMD is completed by the second step. -/
theorem run_write_complete {c : Word} {cs : List Word} {s t : State} (hr : s.rstN = true) (hb : s.busy = false)
    (hm : s.moves = (c :: cs).map (Move.write 0x000#12)) (h : execWord c s = .next t) (k : Nat) :
    core.run (k + 2) s = core.run k (beside (writing false c cs s) t) := by
  have hissue : step s = .next (writing true c cs s) := writeToCmdIssuesTheWord s c _ hr hb hm
  have hcomplete : complete (writing true c cs s) = .next (beside (writing false c cs s) t) :=
    complete_beside (u := writing true c cs s) h
  have hturn : step (writing true c cs s) = complete (writing true c cs s) :=
    step_of_engineHasTurn hr rfl (engineHasTurn_of_writes rfl)
  exact (run_succ hissue (k + 1)).trans (run_succ (hturn.trans hcomplete) k)

/-- R298, R360: a host that writes words one after another to CMD ends the computation of the words, in two steps for
each. -/
theorem run_writes {cs : List Word} {s t : State} (hr : s.rstN = true) (hb : s.busy = false)
    (hm : s.moves = cs.map (Move.write 0x000#12)) (h : execWords cs s = .next t) :
    ∃ u, core.run (2 * cs.length) s = .next u ∧ Ended u ∧ u = beside u t := by
  induction cs generalizing s t with
  | nil =>
    injection h with h
    subst h
    exact ⟨s, rfl, ⟨hm, hb⟩, rfl⟩
  | cons c cs ih =>
    cases hc : execWord c s with
    | next v =>
      rw [execWords_cons hc] at h
      obtain ⟨u, hrun, hended, hu⟩ :=
        ih (s := beside (writing false c cs s) v) hr rfl rfl (execWords_beside (writing false c cs s) h)
      exact ⟨u, (run_write_complete hr hb hm hc (2 * cs.length)).trans hrun, hended, hu⟩
    | fault r => simp [execWords, hc] at h
    | refused r => simp [execWords, hc] at h

theorem SameComputation.message {s t : State} (h : SameComputation s t) : t.message = s.message := by
  rw [State.message, State.message, h.msglen, h.blk]

/-- R194: the padded message begins with the message. -/
theorem take_pad (m : List Byte) : (pad m).take m.length = m := by
  rw [pad, List.append_assoc, List.append_assoc]
  exact List.take_left' rfl

/-- R298: INIT, the bytes and HASH compute the digest of the message. -/
theorem execWords_digest (m : List Byte) (s : State) (h : m.length ≤ 55) :
    ∃ t, execWords (encode .init :: (m.map fun b => encode (.push b)) ++ [encode .hash]) s = .next t ∧
      t.phase = .done ∧ t.err = .none ∧ t.h = sha256 m ∧ t.message = m := by
  obtain ⟨p, hpushes, hmsg, hlen, hframe⟩ := pushesBuildTheMessage m (initState s) rfl (by simpa using h)
  have hpm : p.message = m := by simpa [State.message] using hmsg
  have hpl : p.msglen.toNat = m.length := by simpa using hlen
  have hload : p.phase = .load := by rw [hframe]; rfl
  obtain ⟨t, hhash, hdone, hdigest, hblk, _, _, _, hkept⟩ :=
    hashComputesTheDigest p hload (by omega) (by rw [hframe]; rfl) (by rw [hframe]; rfl)
  refine ⟨t, ?_, hdone, ?_, by rw [hdigest, hpm], ?_⟩
  · have hinit : execWord (encode .init) s = .next (initState s) := execWord_init s
    have hword : execWord (encode .hash) p = .next t := (execWord_ok (decode_encode .hash) p).trans hhash
    rw [List.cons_append, execWords_cons hinit, execWords_append hpushes, execWords_cons hword, execWords]
  · rw [hkept, hframe]; rfl
  · have htl : t.msglen = p.msglen := by rw [hkept]
    rw [State.message, hblk, hpm, htl, hpl, take_pad]

/-- Settles O26: the host's words are INIT, the pushes and HASH, and the run ends the computation of the words. -/
theorem bootSequenceHashesAnyMessage : Obligations.BootSequenceHashesAnyMessage := by
  unfold Obligations.BootSequenceHashesAnyMessage
  intro m s hlen hr hb hm
  obtain ⟨t, hwords, hdone, herr, hdigest, hmsg⟩ := execWords_digest m s hlen
  obtain ⟨u, hrun, hended, hu⟩ := run_writes hr hb hm hwords
  have hsame : SameComputation t u := hu ▸ sameComputation_beside u t
  refine ⟨u, ?_, ⟨hended, hsame.phase.trans hdone⟩, hsame.err.trans herr, hsame.h.trans hdigest,
    hsame.message.trans hmsg⟩
  simpa using hrun

end Sys2Proof.Machine
end

section
/-! PROOFS. Exceptions (60_exceptions.md): the phases a command's rule can lead to, the ERROR phase (R315), precise
errors (R312, R313), and the way into DONE (R318). -/

namespace Sys2Proof.Machine

/-- R313, R318: a command's rule leaves PHASE as it is or leads to a phase that is not ERROR, and to DONE only if the
command is FINAL or HASH. -/
theorem bodyOf_phase {i : Instr} {s t : State} (h : bodyOf i s = .ok t) :
    t.phase = s.phase ∨ t.phase ≠ .error ∧ (t.phase = .done → i = .final ∨ i = .hash) := by
  cases i with
  | nop => injection h with h; exact .inl (h ▸ rfl)
  | init => injection h with h; exact .inr (by simp [← h])
  | push b => exact .inl (by rw [(pushBody_inv h).2.2])
  | pad => exact .inr (by simp [(padBody_inv h).2.2, paddedState])
  | expand n =>
    obtain ⟨_, _, _, rfl⟩ := expandBody_inv h
    rw [closeSchedule_phase, expandSteps_phase]
    split
    · exact .inr (by simp)
    · exact .inl rfl
  | round n =>
    obtain ⟨hp, _, rfl⟩ := roundBody_inv h
    rw [closeRounds_phase, roundSteps_phase, openWork_phase hp]
    split <;> exact .inr (by simp)
  | final => exact .inr (by simp [(finalBody_inv h).2])
  | hash =>
    obtain ⟨_, _, _, _, _, _, hfinal⟩ := hashBody_inv h
    exact .inr (by simp [(finalBody_inv hfinal).2])

/-! The ERROR phase (R315) -/

/-- R315: in ERROR every word but INIT's is ignored, an illegal word among them. -/
theorem execWord_ignored {c : Word} {s : State} (hp : s.phase = .error) (hc : c ≠ 0x01000000#32) :
    execWord c s = .next s := by
  cases hd : decode c with
  | ok i =>
    have hi : i ≠ .init := by
      rintro rfl
      exact hc (encode_of_decode hd).symm
    rw [execWord_ok hd, exec_of_ne_init hi]
    exact runCommand_ignored _ _ _ hp
  | error why =>
    rw [execWord_illegal hd]
    exact runCommand_ignored _ _ _ hp

/-- R83, R315: only STATUS and HEXn show PHASE. -/
theorem readReg_phase (upper : Bool) (s : State) (p : Phase) {r : Reg} (hstatus : r ≠ .status)
    (hhex : ∀ n, r ≠ .hex n) : readReg upper { s with phase := p } r = readReg upper s r := by
  cases r with
  | status => exact absurd rfl hstatus
  | hex n => exact absurd rfl (hhex n)
  | _ => rfl

/-- Settles O29: the word is ignored or is INIT's, and the reads show PHASE in STATUS and HEXn only. -/
theorem errorPhaseIgnoresAllButInit : Obligations.ErrorPhaseIgnoresAllButInit := by
  unfold Obligations.ErrorPhaseIgnoresAllButInit
  refine fun c s hp => ⟨execWord_ignored hp, fun hc => ?_, fun upper p r hstatus hhex => ?_, fun upper n => ?_⟩
  · rw [hc, execWord_init]
  · exact (readReg_phase upper s p hstatus hhex).symm
  · exact hexReg_of_ne_done (by simp [hp]) n.val

/-! Errors (R312, R313) and DONE (R318) -/

/-- R312: a command that leads to ERROR raised an error of its own rule. -/
theorem exec_enters_error {i : Instr} {s t : State} (hp : s.phase ≠ .error) (h : exec i s = .next t)
    (ht : t.phase = .error) :
    ∃ code, bodyOf i s = .error (.error code) ∧ t = raiseError code (encode i) s := by
  rcases exec_next h with ⟨he, _⟩ | ⟨hb, _⟩ | ⟨_, herr⟩
  · exact absurd he hp
  · rcases bodyOf_phase hb with hsame | ⟨hne, _⟩
    · exact absurd (hsame.symm.trans ht) hp
    · exact absurd ht hne
  · exact herr

/-- Settles O30: a word that decodes raised an error of its command's list, any other is illegal, and `raiseError`
writes PHASE, ERR and ERRCMD only. -/
theorem errorsArePreciseAndListed : Obligations.ErrorsArePreciseAndListed := by
  unfold Obligations.ErrorsArePreciseAndListed
  intro c s t hp h ht
  cases hd : decode c with
  | ok i =>
    rw [execWord_ok hd] at h
    obtain ⟨code, hcode, rfl⟩ := exec_enters_error hp h ht
    refine ⟨fun j hj => ?_, fun hwf => ?_, encode_of_decode hd, rfl⟩
    · injection hj with hj
      exact hj ▸ bodyOf_error hcode
    · obtain ⟨why, hill⟩ := decode_of_not_wellFormed hwf
      rw [hd] at hill
      cases hill
  | error why =>
    have hill : execWord c s = .next (raiseError .illegalCmd c s) :=
      (execWord_illegal hd s).trans (runCommand_error _ _ _ hp rfl)
    rw [hill] at h
    injection h with h
    subst h
    exact ⟨fun _ hi => (nomatch hi), fun _ => rfl, rfl, rfl⟩

/-- Settles O31: a word ignored keeps PHASE, an error leads to ERROR, and of the rules only FINAL's and HASH's lead to
DONE. -/
theorem doneOnlyByFinalOrHash : Obligations.DoneOnlyByFinalOrHash := by
  unfold Obligations.DoneOnlyByFinalOrHash
  intro i s t h hs ht
  rcases exec_next h with ⟨_, rfl⟩ | ⟨hb, _⟩ | ⟨_, code, _, rfl⟩
  · exact absurd ht hs
  · rcases bodyOf_phase hb with hsame | ⟨_, hdone⟩
    · exact absurd (hsame.symm.trans ht) hs
    · exact hdone ht
  · cases ht

end Sys2Proof.Machine
end

section
/-! PROOFS. Reset and hazards (70_reset_and_hazards.md): an access that waits while BUSY = 1 (R354), and the engine held
at its reset values while rst_n = 0 (R350, R351). -/

namespace Sys2Proof.Machine

/-- R81: a step that answers a next state had no misaligned access first. -/
theorem aligned_of_step {s t : State} {addr : Addr} {v : Word} {rest : List Move}
    (hm : s.moves = .read addr :: rest ∨ s.moves = .write addr v :: rest) (h : step s = .next t) :
    misaligned addr = false := by
  by_contra hmis
  have hne : addr.toNat % 4 ≠ 0 := (misaligned_eq_true addr).mp (eq_true_of_ne_false hmis)
  have hrefused := misalignedAccessIsRefused s addr v rest hne hm
  rw [h] at hrefused
  cases hrefused

/-! An access that waits (R354) -/

/-- R291: a completion writes neither the moves nor the replies. -/
theorem complete_keeps_host {s t : State} (h : complete s = .next t) : t.moves = s.moves ∧ t.replies = s.replies := by
  obtain ⟨u, hu, rfl⟩ := clearBusy_next h
  obtain ⟨_, _, _, hmoves, hreplies, _⟩ := execWord_keeps_own hu
  exact ⟨hmoves, hreplies⟩

/-- R354: an aligned access other than a STATUS read, next while BUSY = 1, leaves the turn to the engine. -/
theorem engineHasTurn_of_access {s t : State} {mv : Move} {rest : List Move} (hm : s.moves = mv :: rest)
    (hmv : (∃ addr v, mv = .write addr v) ∨ ∃ addr, mv = .read addr ∧ regOf addr ≠ .status)
    (h : step s = .next t) : EngineHasTurn s s.moves := by
  rcases hmv with ⟨addr, v, rfl⟩ | ⟨addr, rfl, hreg⟩
  · exact .inr (.inr (.inr ⟨rfl, addr, v, rest, hm, aligned_of_step (.inr hm) h⟩))
  · exact .inr (.inr (.inl ⟨rfl, addr, rest, hm, aligned_of_step (v := 0#32) (.inl hm) h, hreg⟩))

/-- Settles O38: the access leaves the turn to the engine, and a completion keeps the host's side and clears BUSY. -/
theorem busyStallsTheHost : Obligations.BusyStallsTheHost := by
  unfold Obligations.BusyStallsTheHost
  intro s t mv rest hr hb hm hmv h
  have hcomplete : complete s = .next t :=
    (step_of_engineHasTurn hr hb (engineHasTurn_of_access hm hmv h)).symm.trans h
  obtain ⟨hmoves, hreplies⟩ := complete_keeps_host hcomplete
  exact ⟨hcomplete, hmoves, hreplies, busy_of_complete hcomplete⟩

/-! The engine held in reset (R350, R351) -/

/-- R350: rst_n taken to 0 resets the engine, whatever is in flight. -/
theorem step_rstN_low {s : State} {rest : List Move} (hr : s.rstN = true) (hm : s.moves = .rstN false :: rest) :
    step s = .next { resetEngine s with rstN := false, moves := rest } := by
  simp [step, hr, runTurn, hm, setRstN, resetEngine]

/-- R351: while rst_n = 0 an aligned read returns 0. -/
theorem step_read_in_reset {s : State} {addr : Addr} {rest : List Move} (hr : s.rstN = false)
    (hm : s.moves = .read addr :: rest) (hal : misaligned addr = false) :
    step s = .next { resetEngine s with moves := rest, replies := s.replies ++ [⟨addr, 0#32⟩] } := by
  simp [step, hr, resetTurn, hm, hal]

/-- R350: a step with rst_n = 0, or that takes it to 0, leaves the engine as its reset does. -/
theorem resetEngine_of_step {s t : State} (hs : s.rstN = false ∨ ∃ rest, s.moves = .rstN false :: rest)
    (h : step s = .next t) : resetEngine t = t := by
  cases hr : s.rstN with
  | false =>
    rw [step, if_neg (by simp [hr])] at h
    obtain ⟨_, ht⟩ := resetTurn_next h
    rw [ht]
    rfl
  | true =>
    obtain ⟨rest, hm⟩ := hs.resolve_left (by simp [hr])
    rw [step_rstN_low hr hm] at h
    injection h with h
    rw [← h]
    rfl

/-- Settles O44: the state after the step is its own reset, so BUSY and PHASE are those of reset, and a read in reset
returns 0. -/
theorem resetHoldsTheEngine : Obligations.ResetHoldsTheEngine := by
  unfold Obligations.ResetHoldsTheEngine
  intro s t hs h
  have hheld : resetEngine t = t := resetEngine_of_step hs h
  refine ⟨hheld, ?_, ?_, fun hr addr rest hm => ?_⟩
  · exact (congrArg State.busy hheld).symm
  · exact (congrArg State.phase hheld).symm
  · rw [step_read_in_reset hr hm (aligned_of_step (v := 0#32) (.inl hm) h)] at h
    injection h with h
    rw [← h]

end Sys2Proof.Machine
end
